-- ==== Sys2Proof/Word.lean ====
section
/-! DEFINITION. The word of the machine: an 8-bit byte, which is both a memory cell and a register
(00_scope.md R6, R9), and a register number. -/

namespace Sys2Proof

/-- A memory cell, a register, an operand byte: 8 bits, unsigned (00_scope.md R6 `W = CELL = 8`, R10). -/
abbrev Byte := BitVec 8

/-- A valid register index, 0 to 7 (10_state.md R20: "register indices are always in [0, 8)"). -/
abbrev RegNum := Fin 8

/-- `trunc8` of 00_scope.md R10: the low 8 bits of a natural number. -/
def trunc8 (n : Nat) : Byte := BitVec.ofNat 8 n

end Sys2Proof
end

