-- ==== Sys2Proof/Machine/Flags.lean ====
section
/-! DEFINITION. The machine has no flags: no instruction writes or tests a condition code (10_state.md R30).
What stands here is all the arithmetic there is, the four computations of 43_arithmetic.md R145. Each takes the
exact result on natural numbers and keeps its low 8 bits; carry, overflow and borrow are recorded nowhere. -/

namespace Sys2Proof.Machine

/-- The product of MUL (43_arithmetic.md R140). -/
def mulByte (u v : Byte) : Byte := trunc8 (u.toNat * v.toNat)

/-- The sum of ADD (43_arithmetic.md R144). -/
def addByte (u v : Byte) : Byte := trunc8 (u.toNat + v.toNat)

/-- The increment of SP in POP: 255 becomes 0 (43_arithmetic.md R145). -/
def incByte (u : Byte) : Byte := trunc8 (u.toNat + 1)

/-- The decrement of SP in PUSH: 0 becomes 255 (43_arithmetic.md R145). 255 is -1 modulo 256. -/
def decByte (u : Byte) : Byte := trunc8 (u.toNat + 255)

end Sys2Proof.Machine
end

