-- ==== Sys2Proof/Config.lean ====
section
/-! DEFINITION. The parameters of an instance (00_scope.md R6): the memory size `N` and the reset value
`SP_INIT` of register 7. Everything else of R6 is a constant. There is no free value: the spec leaves no
result open. -/

namespace Sys2Proof

/-- `SPREG`, the index of the stack-pointer register (00_scope.md R6). -/
abbrev spReg : RegNum := 7

/-- One instance of the hardware. The size is held as the top address `N - 1`, so the sizes the spec
refuses (0 and above 256; 93_implementation_defined.md U2) cannot be written. DESIGN CHOICE, safe (log 2). -/
structure Config where
  /-- the highest valid address, `N - 1` -/
  topAddr : Fin 256
  /-- `SP_INIT`, any byte (00_scope.md R6, D3) -/
  spInit : Byte
deriving DecidableEq, Repr

/-- `N`, the number of memory cells, 1 to 256 (00_scope.md R6). -/
def Config.N (c : Config) : Nat := c.topAddr.val + 1

/-- An instance of `n` cells with the default stack top `SP_INIT = N - 1`; none for a size the spec
refuses (92_eei_decisions.md D2, D3). -/
def Config.ofSize (n : Nat) : Option Config :=
  if h : n - 1 < 256 then
    if n = 0 then none else some ⟨⟨n - 1, h⟩, trunc8 (n - 1)⟩
  else none

/-- The default instance: `N = 256`, `SP_INIT = 255` (00_scope.md R6). -/
def Config.default : Config := ⟨255, 255#8⟩

@[simp] theorem Config.default_N : Config.default.N = 256 := rfl

theorem Config.one_le_N (c : Config) : 1 ≤ c.N := Nat.le_add_left 1 _

theorem Config.N_le (c : Config) : c.N ≤ 256 := c.topAddr.isLt

end Sys2Proof
end

