-- ==== Sys2Proof/Machine/State.lean ====
section
/-! DEFINITION. The state of the machine (10_state.md), as plain data, and its value after reset. -/

namespace Sys2Proof.Machine

/-- The execution status (10_state.md R31). The source's Running flag is `status = running`. -/
inductive Status where
  /-- after reset, before the host starts execution -/
  | idle
  /-- the execution loop is fetching and executing -/
  | running
  /-- an HLT instruction has completed -/
  | halted
  /-- a fatal error was raised; the fault record says which -/
  | faulted
deriving DecidableEq, Repr

/-- The fault record (60_exceptions.md R161): the cause and the values it records. -/
inductive FaultRecord where
  /-- an access to a memory address at or above `N` -/
  | outOfBoundsMemory (addr : Nat)
  /-- a register operand byte of 8 or more -/
  | outOfBoundsRegister (index : Byte)
  /-- a fetched opcode byte in no row of the table -/
  | unrecognizedOpcode (pc : Nat) (byte : Byte)
  /-- the ALU given a tag other than ADD; `tag` names that tag (log 10). No program raises it -/
  | unsupportedOperation (tag : Nat)
deriving DecidableEq, Repr

/-- Memory: the cells that are not 0, each with its address, addresses rising (`Memory.wf`). A cell that is
not listed reads as 0, the reset value of every cell (10_state.md R35, R40). -/
abbrev Memory := List Host.Cell

/-- The canonical form: addresses strictly rising, and no entry equal to what an unlisted address reads as. -/
abbrev Memory.wf (m : Memory) : Prop :=
  m.Pairwise (fun c d => c.1 < d.1) ∧ ∀ c ∈ m, c.2 ≠ 0#8

/-- Everything the spec gives the machine (10_state.md, introduction). -/
structure State where
  /-- the parameters of the instance; nothing changes them (00_scope.md R6, log 1) -/
  cfg : Config
  /-- the register file R0 to R7; R7 is SP (R20, R21) -/
  x : Vector Byte 8
  /-- the program counter, in [0, N] (R25) -/
  pc : Nat
  /-- the memory (R35) -/
  mem : Memory
  /-- the execution status (R31) -/
  status : Status
  /-- the fault record, none unless faulted (R33) -/
  fault : Option FaultRecord
  /-- the output stream, oldest first (R34) -/
  out : List Byte
  /-- a `load` was accepted since the last reset (70_reset_and_hazards.md R195, R196; log 8) -/
  loaded : Bool
deriving DecidableEq, Repr

/-- Reasons a step could stop without a next state. There are none: a running core always completes an
instruction or faults, and a fault of the spec is a next state whose status is `faulted`
(40_execution_cycle.md R107, 60_exceptions.md R165). DEDUCED, safe (log 6). -/
inductive Fault where
deriving DecidableEq, Repr

/-- Reasons a step could be refused. -/
inductive Refusal where
  /-- an instruction without a meaning; would be raised by `exec`. No arm raises it. Safe -/
  | notModelled (mnemonic : String)
deriving DecidableEq, Repr

/-- The register file after reset: R0 to R6 are 0, R7 is `SP_INIT` (10_state.md R40, D3, D4). -/
def resetRegs (c : Config) : Vector Byte 8 := #v[0, 0, 0, 0, 0, 0, 0, c.spInit]

/-- An instance right after reset (10_state.md R40, 70_reset_and_hazards.md R190). -/
def State.resetWith (c : Config) : State where
  cfg := c
  x := resetRegs c
  pc := 0
  mem := []
  status := .idle
  fault := none
  out := []
  loaded := false

/-- The default instance, `N = 256` and `SP_INIT = 255`, right after reset. -/
def State.reset : State := State.resetWith Config.default

end Sys2Proof.Machine
end

