-- ==== Sys2Proof/Machine/Ops.lean ====
section
/-! DEFINITION. The named operations over memory, registers, `pc`, `out` and `status`: the primitives of
00_scope.md R12, taking a fault (60_exceptions.md R165), and how an instruction ends. -/

namespace Sys2Proof.Machine

/-- One cell of the array; an unlisted cell is 0 (20_memory.md R57). -/
def Memory.get : Memory → Nat → Byte
  | [], _ => 0#8
  | (b, w) :: rest, a => if a = b then w else Memory.get rest a

/-- Store one cell, keeping the canonical form: storing 0 removes the entry. -/
def Memory.set : Memory → Nat → Byte → Memory
  | [], a, v => if v = 0#8 then [] else [(a, v)]
  | (b, w) :: rest, a, v =>
    if a < b then (if v = 0#8 then (b, w) :: rest else (a, v) :: (b, w) :: rest)
    else if a = b then (if v = 0#8 then rest else (a, v) :: rest)
    else (b, w) :: Memory.set rest a v

/-- `M[a]` as the host sees it: one byte of memory. -/
def State.byte (s : State) (a : Nat) : Byte := s.mem.get a

/-- `MemRead(addr, 1)` (00_scope.md R12, 20_memory.md R58). -/
def memRead (s : State) (a : Nat) : Except FaultRecord Byte :=
  if a < s.cfg.N then .ok (s.byte a) else .error (.outOfBoundsMemory a)

/-- `M[a] <- v`, for an address that has been checked. -/
def State.store (s : State) (a : Nat) (v : Byte) : State := { s with mem := s.mem.set a v }

/-- `MemWrite(addr, 1, v)` (00_scope.md R12, 20_memory.md R58). -/
def memWrite (s : State) (a : Nat) (v : Byte) : Except FaultRecord State :=
  if a < s.cfg.N then .ok (s.store a v) else .error (.outOfBoundsMemory a)

/-- `x[r]` (10_state.md R24). -/
def State.reg (s : State) (r : RegNum) : Byte := s.x[r.val]

/-- `x[r] <- v`; no register is hardwired (10_state.md R21, R24). -/
def State.setReg (s : State) (r : RegNum) (v : Byte) : State := { s with x := s.x.set r.val v r.isLt }

/-- `pc <- pc + len`, with no wrap (10_state.md R26, R27). -/
def State.advance (s : State) (len : Nat) : State := { s with pc := s.pc + len }

/-- `out <- out ++ [v]` (10_state.md R34). -/
def State.emit (s : State) (v : Byte) : State := { s with out := s.out ++ [v] }

/-- `status <- Halted` (41_control_flow.md R120). -/
def State.halt (s : State) : State := { s with status := .halted }

/-- TAKING A FAULT (60_exceptions.md R165, R166): `status <- Faulted`, `fault <- (cause, info)`, and nothing
else. No handler runs, no register saves `pc`, control goes nowhere. There is no return from it (R170); the
host's reset is the only exit. -/
def State.raise (s : State) (f : FaultRecord) : State := { s with status := .faulted, fault := some f }

/-- How an instruction ends (00_scope.md R12 `raise`, 40_execution_cycle.md R108): it completes with all its
writes, or it raises and every other write is discarded. -/
def complete (s : State) : Except FaultRecord State → Host.Outcome State Fault Refusal
  | .ok t => .next t
  | .error f => .next (s.raise f)

/-- The code of a fault record on a status port (60_exceptions.md R161; labels only, D8). -/
def FaultRecord.code : FaultRecord → Nat
  | .outOfBoundsMemory _ => 1
  | .outOfBoundsRegister _ => 2
  | .unrecognizedOpcode _ _ => 3
  | .unsupportedOperation _ => 4

/-- The code of the fault field; 0 is no fault (60_exceptions.md R161). -/
def State.faultCode (s : State) : Nat :=
  match s.fault with
  | none => 0
  | some f => f.code

end Sys2Proof.Machine
end

