-- ==== Sys2Proof/Machine/Operands.lean ====
section
/-! DEFINITION. The operand forms: register index, immediate, and register-indirect through R7 with
pre-decrement (PUSH) or post-increment (POP) (30_encoding.md R83, R84, 44_stack.md introduction). -/

namespace Sys2Proof.Machine

/-- `RegIdx(b)`: the whole byte is compared with 8, nothing is masked (00_scope.md R12,
40_execution_cycle.md R104). -/
def regIdx (b : Byte) : Except FaultRecord RegNum :=
  if h : b.toNat < 8 then .ok ⟨b.toNat, h⟩ else .error (.outOfBoundsRegister b)

/-- The immediate of LDI: the byte itself, no extension, no scaling (30_encoding.md R84). -/
def immediate (b : Byte) : Byte := b

/-- `sp'`, the stack pointer after PUSH decrements it (44_stack.md R150). -/
def pushSp (s : State) : Byte := decByte (s.reg spReg)

/-- The address PUSH stores to: the decremented stack pointer (44_stack.md R150). -/
def pushAddr (s : State) : Nat := (pushSp s).toNat

/-- The byte PUSH stores: the register after the decrement, so `PUSH R7` stores the decremented stack
pointer (44_stack.md R150, corner case 2). -/
def pushValue (s : State) (r : RegNum) : Byte := if r = spReg then pushSp s else s.reg r

/-- The address POP loads from: the stack pointer (44_stack.md R151). -/
def popAddr (s : State) : Nat := (s.reg spReg).toNat

end Sys2Proof.Machine
end

