-- ==== Sys2Proof/Machine/Arithmetic.lean ====
section
/-! DEFINITION. The arithmetic family: MUL, and the ALU primitive with its one operation ADD, which no opcode
reaches (43_arithmetic.md). -/

namespace Sys2Proof.Machine

/-- MUL (43_arithmetic.md R140): both sources are read before the destination is written; `operand_a` is
validated before `operand_b`. -/
def execMul (a b : Byte) (s : State) : Host.Outcome State Fault Refusal :=
  complete s do
    let r ← regIdx a
    let q ← regIdx b
    .ok ((s.setReg r (mulByte (s.reg r) (s.reg q))).advance 3)

/-- An operation tag of the ALU (43_arithmetic.md R146): ADD, and other members the spec leaves without names,
numbered here. DESIGN CHOICE, safe (log 10). -/
inductive AluTag where
  | add
  | other (tag : Nat)
deriving DecidableEq, Repr

/-- The ALU (43_arithmetic.md R143, R144). It does not touch `pc`. Nothing in the core calls it. -/
def alu (op : AluTag) (a b : RegNum) (s : State) : State :=
  match op with
  | .add => s.setReg a (addByte (s.reg a) (s.reg b))
  | .other tag => s.raise (.unsupportedOperation tag)

end Sys2Proof.Machine
end

