-- ==== Sys2Proof/Machine/ControlFlow.lean ====
section
/-! DEFINITION. The control-flow family: HLT (41_control_flow.md). There is no other control transfer (R124). -/

namespace Sys2Proof.Machine

/-- HLT (41_control_flow.md R120): `status <- Halted`, and `pc` still advances by 1. -/
def execHlt (s : State) : Host.Outcome State Fault Refusal :=
  complete s (.ok (s.halt.advance 1))

end Sys2Proof.Machine
end

