-- ==== Sys2Proof/Machine/Register.lean ====
section
/-! DEFINITION. The register family: LDI and PRN (42_register.md). -/

namespace Sys2Proof.Machine

/-- LDI (42_register.md R130). -/
def execLdi (a imm : Byte) (s : State) : Host.Outcome State Fault Refusal :=
  complete s do
    let r ← regIdx a
    .ok ((s.setReg r (immediate imm)).advance 3)

/-- PRN (42_register.md R132): the port always accepts the value. -/
def execPrn (a : Byte) (s : State) : Host.Outcome State Fault Refusal :=
  complete s do
    let r ← regIdx a
    .ok ((s.emit (s.reg r)).advance 2)

end Sys2Proof.Machine
end

