-- ==== Sys2Proof/Machine/Stack.lean ====
section
/-! DEFINITION. The stack family: PUSH, the only store, and POP, the only load (44_stack.md). -/

namespace Sys2Proof.Machine

/-- PUSH (44_stack.md R150): the bounds check of the store comes before R7 is written. -/
def execPush (a : Byte) (s : State) : Host.Outcome State Fault Refusal :=
  complete s do
    let r ← regIdx a
    let t ← memWrite s (pushAddr s) (pushValue s r)
    .ok ((t.setReg spReg (pushSp s)).advance 2)

/-- POP (44_stack.md R151): R7 is incremented after the loaded register is written, so `POP R7` ends with the
loaded value plus one. -/
def execPop (a : Byte) (s : State) : Host.Outcome State Fault Refusal :=
  complete s do
    let r ← regIdx a
    let v ← memRead s (popAddr s)
    let t := s.setReg r v
    .ok ((t.setReg spReg (incByte (t.reg spReg))).advance 2)

end Sys2Proof.Machine
end

