-- ==== Sys2Proof/Syntax.lean ====
section
/-! DEFINITION. The instructions: one constructor per row of spec/opcode_table.json, in its order
(30_encoding.md R85). An operand is the byte that follows the opcode, as fetched; whether a register operand
is below 8 is checked by the instruction (40_execution_cycle.md R104), and by `Instr.wf`. -/

namespace Sys2Proof

/-- The closed instruction set (00_scope.md R2). `a` is `operand_a`, `b` and `imm` are `operand_b`. -/
inductive Instr where
  /-- HLT, format Z (41_control_flow.md R120) -/
  | hlt
  /-- LDI Ra,imm, format RI (42_register.md R130) -/
  | ldi (a imm : Byte)
  /-- PRN Ra, format R (42_register.md R132) -/
  | prn (a : Byte)
  /-- MUL Ra,Rb, format RR (43_arithmetic.md R140) -/
  | mul (a b : Byte)
  /-- PUSH Ra, format R (44_stack.md R150) -/
  | push (a : Byte)
  /-- POP Ra, format R (44_stack.md R151) -/
  | pop (a : Byte)
deriving DecidableEq, Repr

end Sys2Proof
end

