-- ==== Sys2Proof/WellFormed.lean ====
section
/-! DEFINITION. Which instructions are legal encodings: every register-index byte is below 8
(30_encoding.md R83, R89). The immediate byte is always legal (R84). -/

namespace Sys2Proof

/-- A register-index byte is legal when its whole value is in [0, 8); it is not masked (30_encoding.md R83). -/
def regByteOk (b : Byte) : Bool := decide (b.toNat < 8)

/-- Legal operand bytes, per format (30_encoding.md R81, R89). -/
def Instr.wf : Instr → Bool
  | .hlt => true
  | .ldi a _ => regByteOk a
  | .prn a => regByteOk a
  | .mul a b => regByteOk a && regByteOk b
  | .push a => regByteOk a
  | .pop a => regByteOk a

end Sys2Proof
end

