-- ==== Sys2Proof/Decode.lean ====
section
/-! DEFINITION. The opcode dispatch table, the decoder and the encoder (30_encoding.md). The decoder is a
total function of a list of bytes, lowest address first. It answers an instruction and the bytes after it,
or rejects by name. -/

namespace Sys2Proof

/-- What the dispatch multiplexer selects (30_encoding.md R87). -/
inductive Op where
  | hlt | ldi | prn | mul | push | pop
deriving DecidableEq, Repr

/-- The four instruction formats (30_encoding.md R81). -/
inductive Format where
  | z | r | ri | rr
deriving DecidableEq, Repr

/-- Why bytes are no instruction. -/
inductive DecodeError where
  /-- the byte at this distance from the opcode is needed and is not there (40_execution_cycle.md R101, R103) -/
  | missingByte (k : Nat)
  /-- the first byte is in no row of the table (30_encoding.md R88) -/
  | unrecognizedOpcode (b : Byte)
deriving DecidableEq, Repr

/-- A row of the opcode table. -/
structure OpRow where
  opcode : Byte
  op : Op
  format : Format
deriving DecidableEq, Repr

/-- The number of bytes of a format (30_encoding.md R81). -/
def Format.len : Format → Nat
  | .z => 1
  | .r => 2
  | .ri => 3
  | .rr => 3

/-- The complete opcode map, from the binary column of 30_encoding.md R85. -/
def opcodeTable : List OpRow :=
  [ ⟨0b00000001#8, .hlt, .z⟩,
    ⟨0b10000010#8, .ldi, .ri⟩,
    ⟨0b01000111#8, .prn, .r⟩,
    ⟨0b10100010#8, .mul, .rr⟩,
    ⟨0b01000101#8, .push, .r⟩,
    ⟨0b01000110#8, .pop, .r⟩ ]

/-- Dispatch: the row equal to the byte on all eight bits (30_encoding.md R85, 40_execution_cycle.md R102). -/
def lookupOpcode (b : Byte) : Option OpRow := opcodeTable.find? fun row => row.opcode == b

/-- The length of an instruction, a function of its opcode byte alone (30_encoding.md R82). -/
def opcodeLen (b : Byte) : Option Nat := (lookupOpcode b).map fun row => row.format.len

/-- Take one operand byte (formats R; 40_execution_cycle.md R103). -/
def takeOne (mk : Byte → Instr) : List Byte → Except DecodeError (Instr × List Byte)
  | [] => .error (.missingByte 1)
  | a :: rest => .ok (mk a, rest)

/-- Take two operand bytes, the first first (formats RI and RR; 40_execution_cycle.md R103). -/
def takeTwo (mk : Byte → Byte → Instr) : List Byte → Except DecodeError (Instr × List Byte)
  | [] => .error (.missingByte 1)
  | [_] => .error (.missingByte 2)
  | a :: b :: rest => .ok (mk a b, rest)

/-- The operand bytes of a recognised opcode. -/
def takeOperands : Op → List Byte → Except DecodeError (Instr × List Byte)
  | .hlt, rest => .ok (.hlt, rest)
  | .ldi, rest => takeTwo Instr.ldi rest
  | .prn, rest => takeOne Instr.prn rest
  | .mul, rest => takeTwo Instr.mul rest
  | .push, rest => takeOne Instr.push rest
  | .pop, rest => takeOne Instr.pop rest

/-- Decode the instruction at the head of `bytes`. A register byte of 8 or more is taken as fetched: the
instruction rejects it (40_execution_cycle.md R104), after all operand bytes are there (R103). -/
def decode : List Byte → Except DecodeError (Instr × List Byte)
  | [] => .error (.missingByte 0)
  | b :: rest =>
    match lookupOpcode b with
    | none => .error (.unrecognizedOpcode b)
    | some row => takeOperands row.op rest

/-- The bytes of an instruction, lowest address first, from the byte column of 30_encoding.md R91. -/
def encode : Instr → List Byte
  | .hlt => [0x01#8]
  | .ldi a imm => [0x82#8, a, imm]
  | .prn a => [0x47#8, a]
  | .mul a b => [0xA2#8, a, b]
  | .push a => [0x45#8, a]
  | .pop a => [0x46#8, a]

/-- `len`: what an instruction adds to `pc` (40_execution_cycle.md R105). -/
def Instr.len : Instr → Nat
  | .hlt => 1
  | .ldi _ _ => 3
  | .prn _ => 2
  | .mul _ _ => 3
  | .push _ => 2
  | .pop _ => 2

/-- A table word as the machine stores it: byte k holds bits 8k to 8k+7, and there are as many bytes as the
longest instruction has; the bits above `nbits` are 0. -/
def tableWordBytes (nbits w : Nat) : List Byte :=
  [trunc8 (w % 2 ^ nbits), trunc8 (w % 2 ^ nbits / 256), trunc8 (w % 2 ^ nbits / 65536)]

/-- What the decoder reads from a table word. -/
def decodeTableWord (nbits w : Nat) : Option Instr :=
  match decode (tableWordBytes nbits w) with
  | .ok (i, _) => some i
  | .error _ => none

end Sys2Proof
end

