-- ==== Sys2Proof/Machine/Fetch.lean ====
section
/-! DEFINITION. Fetch, decode and operand fetch (40_execution_cycle.md R101 to R103), and the placing of bytes
for a fetch. -/

namespace Sys2Proof.Machine

/-- Up to `k` bytes from address `a` on, ending before the first address that is out of range. -/
def readUpTo (s : State) : Nat → Nat → List Byte
  | 0, _ => []
  | k + 1, a =>
    match memRead s a with
    | .ok b => b :: readUpTo s k (a + 1)
    | .error _ => []

/-- The bytes an instruction at `pc` may have: as many as the longest instruction, or to the end of memory. A
read has no side effect, so a byte that the instruction does not have is as good as not read (20_memory.md R57). -/
def fetchWindow (s : State) : List Byte := readUpTo s 3 s.pc

/-- The fault of a failed fetch or decode (40_execution_cycle.md R101, R102, R103): a byte that is not there is
at the first address out of range. -/
def fetchFault (pc : Nat) : DecodeError → FaultRecord
  | .missingByte k => .outOfBoundsMemory (pc + k)
  | .unrecognizedOpcode b => .unrecognizedOpcode pc b

/-- Fetch and decode the instruction at `pc`; `pc` does not change (40_execution_cycle.md R101). -/
def fetch (s : State) : Except FaultRecord Instr :=
  match decode (fetchWindow s) with
  | .ok (i, _) => .ok i
  | .error e => .error (fetchFault s.pc e)

/-- One step of a running core (40_execution_cycle.md R106), given what executes a decoded instruction. -/
def runningStep (execute : Instr → State → Host.Outcome State Fault Refusal) (s : State) :
    Host.Outcome State Fault Refusal :=
  match fetch s with
  | .ok i => execute i s
  | .error f => complete s (.error f)

/-- Bytes written from address `a` on, as far as the memory goes. -/
def placeBytes : Nat → List Byte → State → State
  | _, [], s => s
  | a, b :: bs, s =>
    placeBytes (a + 1) bs (if a < s.cfg.N then s.store a b else s)

end Sys2Proof.Machine
end

