-- ==== Sys2Proof/Machine/Step.lean ====
section
/-! DEFINITION. One step of the machine (40_execution_cycle.md R100, R106). -/

namespace Sys2Proof.Machine

/-- A step is enabled only while running; in the other three states the core does nothing and its state does not
change (40_execution_cycle.md R100). The unchanged state is the next state (log 5). -/
def step (s : State) : Host.Outcome State Fault Refusal :=
  match s.status with
  | .running => runningStep exec s
  | .idle => .next s
  | .halted => .next s
  | .faulted => .next s

/-- `s` with a table word stored at `pc`, and running, so that the next step runs it. It stands for the host's
`load` and `start` (log 9); bytes that would lie outside the memory are not stored (log 18). -/
def State.withFetchWord (s : State) (nbits w : Nat) : State :=
  { placeBytes s.pc (tableWordBytes nbits w) s with status := .running }

end Sys2Proof.Machine
end

