-- ==== Sys2Proof/Machine/Console.lean ====
section
/-! DEFINITION. The host's rendering of `out` (42_register.md R134) and the assembly notation of an instruction
(30_encoding.md R91). Both are text for people; the core never sees them. -/

namespace Sys2Proof.Machine

/-- A decimal digit, 0 to 9, as a character. -/
def digitChar (n : Nat) : Char := Char.ofNat (48 + n)

/-- A byte in decimal, no leading zeros, `0` for zero (42_register.md R134). -/
def decimal (v : Byte) : List Char :=
  if v.toNat < 10 then [digitChar v.toNat]
  else if v.toNat < 100 then [digitChar (v.toNat / 10), digitChar (v.toNat % 10)]
  else [digitChar (v.toNat / 100), digitChar (v.toNat / 10 % 10), digitChar (v.toNat % 10)]

/-- The lines of the console, one value a line, in execution order (42_register.md R134). What ends a line is
not stated (91_not_in_source.md N9), so a line is held without its end. -/
def renderOut (out : List Byte) : List (List Char) := out.map decimal

/-- A register operand in assembly: `R` and the decimal index (30_encoding.md R91). -/
def asmReg (a : Byte) : List Char := 'R' :: decimal a

/-- The assembly notation (30_encoding.md R91); notation only, of a well-formed instruction. -/
def assembly : Instr → List Char
  | .hlt => ['H', 'L', 'T']
  | .ldi a imm => ['L', 'D', 'I', ' '] ++ asmReg a ++ [','] ++ decimal imm
  | .prn a => ['P', 'R', 'N', ' '] ++ asmReg a
  | .mul a b => ['M', 'U', 'L', ' '] ++ asmReg a ++ [','] ++ asmReg b
  | .push a => ['P', 'U', 'S', 'H', ' '] ++ asmReg a
  | .pop a => ['P', 'O', 'P', ' '] ++ asmReg a

end Sys2Proof.Machine
end

