-- ==== Sys2Proof/Machine/HostInterface.lean ====
section
/-! DEFINITION. What the host can do to the core (70_reset_and_hazards.md R190, R195 to R199), and the
diagnostic trace (60_exceptions.md R180). Every operation is a total function of the state; one that is not
accepted is ignored. -/

namespace Sys2Proof.Machine

/-- `reset`: accepted in every state, nothing survives it but the parameters of the instance (R190). -/
def hostReset (s : State) : State := State.resetWith s.cfg

/-- The Loader's writes: one cell per byte, from address `a` on (R196). -/
def loadBytes : Nat → List Byte → Memory → Memory
  | _, [], m => m
  | a, b :: bs, m => loadBytes (a + 1) bs (m.set a b)

/-- `load` is accepted while `Idle`, once per reset, for at most `N` bytes (R195, R196). A refused load is not
an accepted one, so it leaves the one load open. DEDUCED, unsafe (log 8). -/
def loadAccepted (s : State) (bytes : List Byte) : Bool :=
  decide (s.status = .idle) && !s.loaded && decide (bytes.length ≤ s.cfg.N)

/-- `load(bytes)`: the program from address 0 on; refused whole when it is longer than the memory (R196). -/
def hostLoad (bytes : List Byte) (s : State) : State :=
  if loadAccepted s bytes then { s with mem := loadBytes 0 bytes s.mem, loaded := true } else s

/-- `start`: accepted only in `Idle`; it sets `status` and changes nothing else (R197). -/
def hostStart (s : State) : State :=
  if s.status = .idle then { s with status := .running } else s

/-- What the diagnostic trace shows: `pc`, the three cells from `pc` on (absent at or above `N`), and the
register file (60_exceptions.md R180). -/
structure TraceView where
  pc : Nat
  cells : List (Option Byte)
  x : Vector Byte 8
deriving DecidableEq, Repr

/-- What the host can read (70_reset_and_hazards.md R195). -/
inductive HostQuery where
  | out
  | status
  | fault
  | register (r : RegNum)
  | pc
  | cell (a : Nat)
  | trace
deriving DecidableEq, Repr

/-- What a read answers. -/
inductive HostAnswer where
  | values (vs : List Byte)
  | statusIs (st : Status)
  /-- the code of 60_exceptions.md R161 and the record -/
  | faultIs (code : Nat) (f : Option FaultRecord)
  | byte (v : Option Byte)
  | number (n : Nat)
  | traceIs (t : TraceView)
deriving DecidableEq, Repr

/-- A cell as the host reads it: absent at or above `N`, never a fault (60_exceptions.md R180 says it of the
trace; of a plain read it is DEDUCED, safe, log 13). -/
def hostCell (s : State) (a : Nat) : Option Byte := if a < s.cfg.N then some (s.byte a) else none

/-- The diagnostic trace, a read-only observation (60_exceptions.md R180). -/
def diagnosticTrace (s : State) : TraceView where
  pc := s.pc
  cells := [hostCell s s.pc, hostCell s (s.pc + 1), hostCell s (s.pc + 2)]
  x := s.x

/-- The answer to a read. -/
def hostAnswer (s : State) : HostQuery → HostAnswer
  | .out => .values s.out
  | .status => .statusIs s.status
  | .fault => .faultIs s.faultCode s.fault
  | .register r => .byte (some (s.reg r))
  | .pc => .number s.pc
  | .cell a => .byte (hostCell s a)
  | .trace => .traceIs (diagnosticTrace s)

/-- Everything the host can do (70_reset_and_hazards.md R195). -/
inductive HostOp where
  | reset
  | load (bytes : List Byte)
  | start
  | read (q : HostQuery)
deriving DecidableEq, Repr

/-- The effect of a host operation. A read has none (70_reset_and_hazards.md R199). -/
def hostStep : HostOp → State → State
  | .reset, s => hostReset s
  | .load bytes, s => hostLoad bytes s
  | .start, s => hostStart s
  | .read _, s => s

/-- Reset, load, start (10_state.md R41). None when the load is refused: the host must not start the core then
(70_reset_and_hazards.md R198 b). -/
def launch (c : Config) (bytes : List Byte) : Option State :=
  if loadAccepted (State.resetWith c) bytes then
    some (hostStart (hostLoad bytes (State.resetWith c)))
  else none

end Sys2Proof.Machine
end

