-- ==== Sys2Proof/Machine/Environment.lean ====
section
/-! DEFINITION. The core together with its host: what can happen next, and which states can be reached
(70_reset_and_hazards.md R195, 40_execution_cycle.md R109). -/

namespace Sys2Proof.Machine

/-- What can happen between two states: the core takes a step, or the host acts. -/
inductive Event where
  | coreStep
  | host (op : HostOp)
deriving DecidableEq, Repr

/-- The effect of an event. -/
def applyEvent : Event → State → Host.Outcome State Fault Refusal
  | .coreStep, s => step s
  | .host op, s => .next (hostStep op s)

/-- The states an instance can be in: from reset, by events. -/
inductive Reachable (c : Config) : State → Prop where
  | reset : Reachable c (State.resetWith c)
  | event {s t : State} (e : Event) : Reachable c s → applyEvent e s = .next t → Reachable c t

/-- The state after `k` steps of the core alone; a step always answers a next state. -/
def runsTo (k : Nat) (s t : State) : Prop := Sys2Proof.core.run k s = .next t

end Sys2Proof.Machine
end

