-- ==== Sys2Proof/Machine/Loader.lean ====
section
/-! DEFINITION. The program text the host's Loader reads (30_encoding.md R93 to R95). It is the host's, not the
core's: the core sees only the bytes (R196). Text is a list of characters. -/

namespace Sys2Proof.Machine

/-- The lines of a text, separated by a line feed. A carriage return is white space at a line's end.
PRESUMED, unsafe (log 14). -/
def splitLines : List Char → List (List Char)
  | [] => [[]]
  | c :: cs =>
    if c = '\n' then [] :: splitLines cs
    else
      match splitLines cs with
      | [] => [[c]]
      | l :: ls => (c :: l) :: ls

/-- The significant part of a line: what stands before the first `#`, without the white space around it (R93). -/
def significant (line : List Char) : List Char :=
  let body := line.takeWhile (fun c => c != '#')
  ((body.dropWhile Char.isWhitespace).reverse.dropWhile Char.isWhitespace).reverse

/-- A base-2 numeral, most significant digit first (R93); none when a character is no binary digit. -/
def binaryValue : Nat → List Char → Option Nat
  | acc, [] => some acc
  | acc, c :: cs =>
    if c = '0' then binaryValue (2 * acc) cs
    else if c = '1' then binaryValue (2 * acc + 1) cs
    else none

/-- What one line means to the Loader. -/
inductive LineMeaning where
  /-- blank or comment only (R94) -/
  | skip
  /-- a numeral of 1 to 8 binary digits (R95) -/
  | byte (v : Byte)
  /-- anything else: a load error (R95) -/
  | bad
deriving DecidableEq, Repr

/-- A line is skipped, is a byte, or is a load error (R93 to R95). -/
def readLine (line : List Char) : LineMeaning :=
  let text := significant line
  if text = [] then .skip
  else if 8 < text.length then .bad
  else
    match binaryValue 0 text with
    | some v => .byte (trunc8 v)
    | none => .bad

/-- The bytes of a file's lines, in file order (R94); none on a load error. -/
def readLines : List (List Char) → Option (List Byte)
  | [] => some []
  | l :: ls =>
    match readLine l with
    | .skip => readLines ls
    | .byte v => (readLines ls).map (fun bytes => v :: bytes)
    | .bad => none

/-- The Loader: text to bytes, or a load error. -/
def parseProgram (text : List Char) : Option (List Byte) := readLines (splitLines text)

/-- The host's duty: reset, load what the text says, start; after a load error or a refused load the core is not
started (70_reset_and_hazards.md R198, 60_exceptions.md R164). -/
def bringUp (c : Config) (text : List Char) : Option State :=
  match parseProgram text with
  | none => none
  | some bytes => launch c bytes

end Sys2Proof.Machine
end

