-- ==== Sys2Proof/Safety.lean ====
section
/-! DEFINITION. The terms claims are stated in: what counts as the end of a run (40_execution_cycle.md R109,
60_exceptions.md R167), the invariant of the machine, the order of the fault checks (R168) as one function, and
sequences of instructions. -/

namespace Sys2Proof.Machine

/-- A run from `s` completes normally after `k` steps: only a halted state is a result (R167). -/
def endsHalted (k : Nat) (s t : State) : Prop := runsTo k s t ∧ t.status = .halted

/-- A run from `s` ends in the fault `f` after `k` steps: an error, never a result (R167). -/
def endsFaulted (k : Nat) (s : State) (f : FaultRecord) (t : State) : Prop :=
  runsTo k s t ∧ t.status = .faulted ∧ t.fault = some f

/-- A valid program terminating in HLT (70_reset_and_hazards.md R201): it fits, and its run halts. Point (e) of
R201, stack use clear of the program's own code "unless it intends otherwise", is not tested, since the spec gives
no test of intent. DESIGN CHOICE, unsafe (log 25). -/
def validProgram (c : Config) (bytes : List Byte) : Prop :=
  ∃ s k t, launch c bytes = some s ∧ endsHalted k s t

/-- What a fault record may hold (60_exceptions.md R161, column "range of info"). `UnsupportedOperation` is
unreachable from programs (43_arithmetic.md R146). -/
def FaultRecord.inRange (s : State) : FaultRecord → Prop
  | .outOfBoundsMemory a => s.cfg.N ≤ a ∧ a ≤ max s.cfg.N 255
  | .outOfBoundsRegister b => 8 ≤ b.toNat
  | .unrecognizedOpcode p b => p = s.pc ∧ p < s.cfg.N ∧ lookupOpcode b = none
  | .unsupportedOperation _ => False

/-- The invariant of the machine. -/
structure State.Inv (s : State) : Prop where
  /-- `pc` is in [0, N] (10_state.md R25, R27) -/
  pc_le : s.pc ≤ s.cfg.N
  /-- the memory keeps its canonical form -/
  mem_wf : s.mem.wf
  /-- the memory has no cell at or above `N` (20_memory.md R50) -/
  mem_in : ∀ c ∈ s.mem, c.1 < s.cfg.N
  /-- exactly one record while `Faulted`, none otherwise (10_state.md R33) -/
  fault_iff : s.fault.isSome = true ↔ s.status = .faulted
  /-- the record is in range (60_exceptions.md R161) -/
  fault_range : ∀ f, s.fault = some f → f.inRange s
  /-- before `start` nothing but the memory has changed since reset (70_reset_and_hazards.md R199) -/
  idle_fresh : s.status = .idle → s.x = resetRegs s.cfg ∧ s.pc = 0 ∧ s.out = []
  /-- before a `load` is accepted the memory is all zero while `Idle` (10_state.md R40) -/
  idle_zero : s.status = .idle → s.loaded = false → s.mem = []

/-- The seven checks of 60_exceptions.md R168 in their order, written from that rule alone: which fault, if
any, a step of a running core raises. -/
def firstFault (s : State) : Option FaultRecord :=
  let opcode := s.byte s.pc
  let operandA := s.byte (s.pc + 1)
  let operandB := s.byte (s.pc + 2)
  let long := opcode = 0x82#8 ∨ opcode = 0xA2#8
  if s.cfg.N ≤ s.pc then some (.outOfBoundsMemory s.pc)
  else if opcode ∉ [0x01#8, 0x45#8, 0x46#8, 0x47#8, 0x82#8, 0xA2#8] then
    some (.unrecognizedOpcode s.pc opcode)
  else if opcode ≠ 0x01#8 ∧ s.cfg.N ≤ s.pc + 1 then some (.outOfBoundsMemory (s.pc + 1))
  else if long ∧ s.cfg.N ≤ s.pc + 2 then some (.outOfBoundsMemory (s.pc + 2))
  else if opcode ≠ 0x01#8 ∧ 8 ≤ operandA.toNat then some (.outOfBoundsRegister operandA)
  else if opcode = 0xA2#8 ∧ 8 ≤ operandB.toNat then some (.outOfBoundsRegister operandB)
  else if opcode = 0x45#8 ∧ s.cfg.N ≤ ((s.reg spReg).toNat + 255) % 256 then
    some (.outOfBoundsMemory (((s.reg spReg).toNat + 255) % 256))
  else if opcode = 0x46#8 ∧ s.cfg.N ≤ (s.reg spReg).toNat then
    some (.outOfBoundsMemory (s.reg spReg).toNat)
  else none

/-- The bytes at `pc` are those of `i`, all inside the memory. -/
def fetches (s : State) (i : Instr) : Prop :=
  s.pc + i.len ≤ s.cfg.N ∧ ∀ k (h : k < (encode i).length), s.byte (s.pc + k) = (encode i)[k]

/-- Instructions executed one after another, each to its end; a fault ends the sequence. -/
def execSeq : List Instr → State → Host.Outcome State Fault Refusal
  | [], s => .next s
  | i :: is, s =>
    match exec i s with
    | .next t => if t.status = .faulted then .next t else execSeq is t
    | .fault r => .fault r
    | .refused r => .refused r

/-- The operand byte that names a register. -/
def regByte (r : RegNum) : Byte := trunc8 r.val

/-- The register an operand byte names, if it names one. -/
def regsNamed (b : Byte) : List RegNum := if h : b.toNat < 8 then [⟨b.toNat, h⟩] else []

/-- Column "reads" of the table of 10_state.md R22. -/
def readsRegs : Instr → List RegNum
  | .hlt => []
  | .ldi _ _ => []
  | .prn a => regsNamed a
  | .mul a b => regsNamed a ++ regsNamed b
  | .push a => spReg :: regsNamed a
  | .pop _ => [spReg]

/-- Column "writes" of the table of 10_state.md R22. -/
def writesRegs : Instr → List RegNum
  | .hlt => []
  | .ldi a _ => regsNamed a
  | .prn _ => []
  | .mul a _ => regsNamed a
  | .push _ => [spReg]
  | .pop a => spReg :: regsNamed a

/-- The value of a list of decimal digit characters; used to say what a numeral stands for. -/
def digitsValue (ds : List Char) : Nat := ds.foldl (fun n c => 10 * n + (c.toNat - 48)) 0

/-- The value of a list of binary digits, most significant first (00_scope.md R8). -/
def bitsValue (ds : List Bool) : Nat := ds.foldl (fun n d => 2 * n + d.toNat) 0

/-- A binary digit as a character. -/
def bitChar (d : Bool) : Char := if d then '1' else '0'

/-- White space alone, or followed by a comment: a line the Loader skips (30_encoding.md R93, R94). -/
def blankOrComment (line : List Char) : Prop :=
  (∀ c ∈ line, c ≠ '\n') ∧
    ∃ ws rest, line = ws ++ rest ∧ (∀ c ∈ ws, c.isWhitespace = true) ∧ (rest = [] ∨ ∃ r, rest = '#' :: r)

end Sys2Proof.Machine
end

