-- ==== Sys2Proof/Certificates/Slice0/Obligations.lean ====
section
/-! DEFINITION. The statements about this model, for the provers. `R<n>` is a rule of spec/. A docstring says
where a statement rests on a decision of the spec (D<n>, spec/92_eei_decisions.md) or of the model (log n). -/

open Sys2Proof Sys2Proof.Machine

/-! ### Encoding -/

/-- 30_encoding.md R85: the six rows of the map with their lengths and operands; the match is on all eight bits. -/
def Obligations.OpcodeMapIsTheSixRows : Prop :=
  (∀ rest, decode (0x01#8 :: rest) = .ok (.hlt, rest)) ∧
  (∀ a imm rest, decode (0x82#8 :: a :: imm :: rest) = .ok (.ldi a imm, rest)) ∧
  (∀ a rest, decode (0x47#8 :: a :: rest) = .ok (.prn a, rest)) ∧
  (∀ a b rest, decode (0xA2#8 :: a :: b :: rest) = .ok (.mul a b, rest)) ∧
  (∀ a rest, decode (0x45#8 :: a :: rest) = .ok (.push a, rest)) ∧
  (∀ a rest, decode (0x46#8 :: a :: rest) = .ok (.pop a, rest)) ∧
  opcodeTable.map (fun row => (row.opcode, row.op, row.format, row.format.len)) =
    [(0x01#8, .hlt, .z, 1), (0x82#8, .ldi, .ri, 3), (0x47#8, .prn, .r, 2), (0xA2#8, .mul, .rr, 3),
     (0x45#8, .push, .r, 2), (0x46#8, .pop, .r, 2)] ∧
  ∀ b, lookupOpcode b = none ↔ b ∉ [0x01#8, 0x82#8, 0x47#8, 0xA2#8, 0x45#8, 0x46#8]

/-- Words written out bit by bit decode to the instructions they stand for: LDI R0,8, PRN R0 and HLT from the
example of 30_encoding.md R96; MUL R0,R1 from program P2, PUSH R1 and POP R1 from program P3 (95_test_vectors.md).
The zero byte, in no row, is rejected by name (30_encoding.md R88). -/
def Obligations.WordsOfTheSpecDecode : Prop :=
  decode [0b10000010#8, 0b00000000#8, 0b00001000#8] = .ok (.ldi 0 8, []) ∧
  decode [0b01000111#8, 0b00000000#8] = .ok (.prn 0, []) ∧
  decode [0b00000001#8] = .ok (.hlt, []) ∧
  decode [0b10100010#8, 0b00000000#8, 0b00000001#8] = .ok (.mul 0 1, []) ∧
  decode [0b01000101#8, 0b00000001#8] = .ok (.push 1, []) ∧
  decode [0b01000110#8, 0b00000001#8] = .ok (.pop 1, []) ∧
  decode [0b00000000#8] = .error (.unrecognizedOpcode 0#8)

/-- Decoding and encoding agree both ways, for every instruction, every operand byte and whatever follows: the
decoder reads `i` exactly from the bytes of `i`. -/
def Obligations.DecodesExactlyTheEncoding : Prop :=
  ∀ (bytes : List Byte) (i : Instr) (rest : List Byte), decode bytes = .ok (i, rest) ↔ bytes = encode i ++ rest

/-- The decoder rejects exactly: no byte, an opcode in no row, or fewer bytes than the opcode asks for; and it
names the first byte that is missing. -/
def Obligations.DecoderRejectsExactly : Prop :=
  ∀ (bytes : List Byte) (e : DecodeError), decode bytes = .error e ↔
    (bytes = [] ∧ e = .missingByte 0) ∨
    (∃ b rest, bytes = b :: rest ∧ opcodeLen b = none ∧ e = .unrecognizedOpcode b) ∨
    (∃ b rest n, bytes = b :: rest ∧ opcodeLen b = some n ∧ bytes.length < n ∧ e = .missingByte bytes.length)

/-- 30_encoding.md R82: the length is a function of the opcode byte alone, whatever follows; for a byte in no row
there is no length and no operand byte matters. -/
def Obligations.LengthComesFromTheOpcodeByte : Prop :=
  (∀ (b : Byte) (tail : List Byte) (i : Instr) (rest : List Byte), decode (b :: tail) = .ok (i, rest) →
    opcodeLen b = some i.len ∧ (b :: tail).length = i.len + rest.length) ∧
  (∀ b, opcodeLen b = none → ∀ tail, decode (b :: tail) = .error (.unrecognizedOpcode b))

/-- 30_encoding.md R88: every other opcode byte is illegal and raises `UnrecognizedOpcode(pc, byte)`, 0x00
included. -/
def Obligations.OtherOpcodeBytesFault : Prop :=
  ∀ s : State, s.status = .running → s.pc < s.cfg.N →
    s.byte s.pc ∉ [0x01#8, 0x45#8, 0x46#8, 0x47#8, 0x82#8, 0xA2#8] →
    step s = .next { s with status := .faulted, fault := some (.unrecognizedOpcode s.pc (s.byte s.pc)) }

/-! ### Memory and the primitives -/

/-- 00_scope.md R12: `MemRead`, `MemWrite`, `RegIdx` and `raise`. The last clause of `MemWrite` reads the cells
back, in a memory in canonical form (log 17). -/
def Obligations.PrimitivesReadWriteIndexRaise : Prop :=
  (∀ (s : State) (a : Nat), memRead s a =
    if s.cfg.N ≤ a then .error (.outOfBoundsMemory a) else .ok (s.byte a)) ∧
  (∀ (s : State) (a : Nat) (v : Byte), s.cfg.N ≤ a → memWrite s a v = .error (.outOfBoundsMemory a)) ∧
  (∀ (s : State) (a : Nat) (v : Byte), s.mem.wf → a < s.cfg.N →
    ∃ m, memWrite s a v = .ok { s with mem := m } ∧
      ∀ c, ({ s with mem := m } : State).byte c = if c = a then v else s.byte c) ∧
  (∀ b : Byte, 8 ≤ b.toNat → regIdx b = .error (.outOfBoundsRegister b)) ∧
  (∀ (b : Byte) (h : b.toNat < 8), regIdx b = .ok ⟨b.toNat, h⟩) ∧
  (∀ (s : State) (f : FaultRecord),
    complete s (.error f) = .next { s with status := .faulted, fault := some f })

/-- 20_memory.md R57: after any writes, from the memory of reset on, a cell reads as the value most recently
written to it, or 0 if it was never written. Reading changes nothing: a read answers no memory. -/
def Obligations.CellsArePlainStorage : Prop :=
  ∀ (writes : List (Nat × Byte)) (a : Nat),
    (writes.foldl (fun m w => Memory.set m w.1 w.2) []).get a =
      ((writes.reverse.find? fun w => w.1 == a).map Prod.snd).getD 0#8

/-- Two memories in canonical form that read the same at every address are the same data (the model's own
representation, log 17). -/
def Obligations.EqualReadsAreEqualMemories : Prop :=
  ∀ m m' : Memory, m.wf → m'.wf → (∀ a, m.get a = m'.get a) → m = m'

/-! ### The instructions, one by one. `exec` is the instruction with its operand bytes fetched; `step` fetches
them, and stops at the first that is outside the memory. -/

/-- 41_control_flow.md R120. HLT sets the status and advances `pc` by 1, at the top of memory too; nothing else
changes; its step faults only at the fetch. The last clause rests on more than R120: that a step of a halted core is
the next state `s` is the model's choice (log 5), and that every operation of the host but reset is ignored then is
70_reset_and_hazards.md R195 and R199 (the spec's decision D12). -/
def Obligations.HltStopsTheLoop : Prop :=
  (∀ s : State, exec .hlt s = .next { s with status := .halted, pc := s.pc + 1 }) ∧
  (∀ s : State, s.status = .running → s.pc < s.cfg.N → s.byte s.pc = 0x01#8 →
    step s = .next { s with status := .halted, pc := s.pc + 1 }) ∧
  (∀ s : State, s.status = .running → s.cfg.N ≤ s.pc →
    step s = .next (s.raise (.outOfBoundsMemory s.pc))) ∧
  (∀ s : State, s.status = .halted →
    step s = .next s ∧ ∀ op : HostOp, op ≠ .reset → hostStep op s = s)

/-- 42_register.md R130. LDI copies the immediate unchanged into any of the eight registers; the faults in the
order they are tested; on any of them nothing is written. -/
def Obligations.LdiLoadsTheImmediate : Prop :=
  (∀ (a imm : Byte) (s : State) (h : a.toNat < 8),
    exec (.ldi a imm) s = .next { s with x := s.x.set a.toNat imm h, pc := s.pc + 3 }) ∧
  (∀ (a imm : Byte) (s : State), 8 ≤ a.toNat →
    exec (.ldi a imm) s = .next (s.raise (.outOfBoundsRegister a))) ∧
  (∀ s : State, s.status = .running → s.pc < s.cfg.N → s.byte s.pc = 0x82#8 →
    step s =
      if s.cfg.N ≤ s.pc + 1 then .next (s.raise (.outOfBoundsMemory (s.pc + 1)))
      else if s.cfg.N ≤ s.pc + 2 then .next (s.raise (.outOfBoundsMemory (s.pc + 2)))
      else exec (.ldi (s.byte (s.pc + 1)) (s.byte (s.pc + 2))) s)

/-- 42_register.md R132 (that the port always accepts is the spec's decision D11). PRN appends the whole register
to the output; the faults in the order they are tested; on either nothing is emitted. -/
def Obligations.PrnEmitsTheRegister : Prop :=
  (∀ (a : Byte) (s : State) (h : a.toNat < 8),
    exec (.prn a) s = .next { s with out := s.out ++ [s.x[a.toNat]], pc := s.pc + 2 }) ∧
  (∀ (a : Byte) (s : State), 8 ≤ a.toNat →
    exec (.prn a) s = .next (s.raise (.outOfBoundsRegister a))) ∧
  (∀ s : State, s.status = .running → s.pc < s.cfg.N → s.byte s.pc = 0x47#8 →
    step s =
      if s.cfg.N ≤ s.pc + 1 then .next (s.raise (.outOfBoundsMemory (s.pc + 1)))
      else exec (.prn (s.byte (s.pc + 1))) s)

/-- 43_arithmetic.md R140. MUL keeps the low 8 bits of the product of natural numbers, both operands read before
the destination is written; the faults in the order they are tested, `operand_a` before `operand_b`. -/
def Obligations.MulKeepsTheLowByte : Prop :=
  (∀ (a b : Byte) (s : State) (ha : a.toNat < 8) (hb : b.toNat < 8),
    exec (.mul a b) s =
      .next { s with x := s.x.set a.toNat
                            (BitVec.ofNat 8 (s.x[a.toNat].toNat * s.x[b.toNat].toNat % 256)) ha,
                     pc := s.pc + 3 }) ∧
  (∀ (a b : Byte) (s : State), 8 ≤ a.toNat →
    exec (.mul a b) s = .next (s.raise (.outOfBoundsRegister a))) ∧
  (∀ (a b : Byte) (s : State), a.toNat < 8 → 8 ≤ b.toNat →
    exec (.mul a b) s = .next (s.raise (.outOfBoundsRegister b))) ∧
  (∀ s : State, s.status = .running → s.pc < s.cfg.N → s.byte s.pc = 0xA2#8 →
    step s =
      if s.cfg.N ≤ s.pc + 1 then .next (s.raise (.outOfBoundsMemory (s.pc + 1)))
      else if s.cfg.N ≤ s.pc + 2 then .next (s.raise (.outOfBoundsMemory (s.pc + 2)))
      else exec (.mul (s.byte (s.pc + 1)) (s.byte (s.pc + 2))) s)

/-- 44_stack.md R150. PUSH stores at the decremented stack pointer, modulo 256 (D6), and commits R7; `PUSH R7`
stores the decremented value. The bounds check comes before R7 is written (D9), so on a fault nothing changes. -/
def Obligations.PushStoresBelowTheStackTop : Prop :=
  (∀ (a sp : Byte) (s : State) (h : a.toNat < 8),
    sp.toNat = (s.x[7].toNat + 255) % 256 → sp.toNat < s.cfg.N →
    exec (.push a) s =
      .next { s with mem := s.mem.set sp.toNat (if a.toNat = 7 then sp else s.x[a.toNat]),
                     x := s.x.set 7 sp, pc := s.pc + 2 }) ∧
  (∀ (a : Byte) (s : State), 8 ≤ a.toNat →
    exec (.push a) s = .next (s.raise (.outOfBoundsRegister a))) ∧
  (∀ (a sp : Byte) (s : State), a.toNat < 8 →
    sp.toNat = (s.x[7].toNat + 255) % 256 → s.cfg.N ≤ sp.toNat →
    exec (.push a) s = .next (s.raise (.outOfBoundsMemory sp.toNat))) ∧
  (∀ s : State, s.status = .running → s.pc < s.cfg.N → s.byte s.pc = 0x45#8 →
    step s =
      if s.cfg.N ≤ s.pc + 1 then .next (s.raise (.outOfBoundsMemory (s.pc + 1)))
      else exec (.push (s.byte (s.pc + 1))) s)

/-- 44_stack.md R151. POP loads the byte at the stack pointer, then adds one to R7 modulo 256 (D6); `POP R7` ends
with the loaded byte plus one. Memory is not changed. -/
def Obligations.PopLoadsTheStackTop : Prop :=
  (∀ (a : Byte) (s : State) (h : a.toNat < 8), s.x[7].toNat < s.cfg.N →
    exec (.pop a) s =
      .next { s with x := (s.x.set a.toNat (s.byte s.x[7].toNat) h).set 7
                            (BitVec.ofNat 8
                              (((if a.toNat = 7 then s.byte s.x[7].toNat else s.x[7]).toNat + 1) % 256)),
                     pc := s.pc + 2 }) ∧
  (∀ (a : Byte) (s : State), 8 ≤ a.toNat →
    exec (.pop a) s = .next (s.raise (.outOfBoundsRegister a))) ∧
  (∀ (a : Byte) (s : State), a.toNat < 8 → s.cfg.N ≤ s.x[7].toNat →
    exec (.pop a) s = .next (s.raise (.outOfBoundsMemory s.x[7].toNat))) ∧
  (∀ s : State, s.status = .running → s.pc < s.cfg.N → s.byte s.pc = 0x46#8 →
    step s =
      if s.cfg.N ≤ s.pc + 1 then .next (s.raise (.outOfBoundsMemory (s.pc + 1)))
      else exec (.pop (s.byte (s.pc + 1))) s)

/-! ### Frames: what an instruction leaves unchanged -/

/-- LDI and MUL change one register and `pc`; a fault (a register byte of 8 or more) changes only `status` and
`fault`, no register (the spec's decision D9, log 7). -/
def Obligations.RegisterWritersFrame : Prop :=
  ∀ (i : Instr) (a : Byte), (∃ imm, i = .ldi a imm) ∨ (∃ b, i = .mul a b) →
    ∀ s t : State, exec i s = .next t →
      (∀ r : RegNum, r.val ≠ a.toNat → t.reg r = s.reg r) ∧
      (∀ c, t.byte c = s.byte c) ∧ t.out = s.out ∧ t.cfg = s.cfg ∧ t.loaded = s.loaded ∧
      ((t.status = s.status ∧ t.fault = s.fault) ∨
        (t.status = .faulted ∧ (∀ r, t.reg r = s.reg r) ∧ t.pc = s.pc))

/-- HLT and PRN change no register and no byte of memory; HLT emits nothing and leaves the fault record, PRN
leaves the status unless its register byte is 8 or more; on that fault nothing is emitted (the spec's decision D9,
log 7). -/
def Obligations.HltAndPrnFrame : Prop :=
  (∀ s t : State, exec .hlt s = .next t →
    (∀ r, t.reg r = s.reg r) ∧ (∀ c, t.byte c = s.byte c) ∧ t.out = s.out ∧ t.fault = s.fault ∧
      t.cfg = s.cfg ∧ t.loaded = s.loaded) ∧
  (∀ (a : Byte) (s t : State), exec (.prn a) s = .next t →
    (∀ r, t.reg r = s.reg r) ∧ (∀ c, t.byte c = s.byte c) ∧ t.cfg = s.cfg ∧ t.loaded = s.loaded ∧
      ((t.status = s.status ∧ t.fault = s.fault) ∨ (t.status = .faulted ∧ t.out = s.out ∧ t.pc = s.pc)))

/-- PUSH: every byte but the one at the address it computes, every register but R7, and the output. `pushAddr` is
what the meaning itself stores to. On a fault no byte and no register changes, R7 included: that is the spec's
decision D9, marked in 44_stack.md R150 (log 7). -/
def Obligations.PushFrame : Prop :=
  ∀ (a : Byte) (s t : State), exec (.push a) s = .next t →
    (∀ c, c ≠ pushAddr s → t.byte c = s.byte c) ∧
    (∀ r : RegNum, r ≠ spReg → t.reg r = s.reg r) ∧
    t.out = s.out ∧ t.cfg = s.cfg ∧ t.loaded = s.loaded ∧
    ((t.status = s.status ∧ t.fault = s.fault) ∨
      (t.status = .faulted ∧ (∀ c, t.byte c = s.byte c) ∧ (∀ r, t.reg r = s.reg r) ∧ t.pc = s.pc))

/-- POP: every byte of memory (the cell it read is not cleared), every register but its destination and R7, and
the output. On a fault no register changes (the spec's decision D9, log 7). -/
def Obligations.PopFrame : Prop :=
  ∀ (a : Byte) (s t : State), exec (.pop a) s = .next t →
    (∀ c, t.byte c = s.byte c) ∧
    (∀ r : RegNum, r ≠ spReg → r.val ≠ a.toNat → t.reg r = s.reg r) ∧
    t.out = s.out ∧ t.cfg = s.cfg ∧ t.loaded = s.loaded ∧
    ((t.status = s.status ∧ t.fault = s.fault) ∨
      (t.status = .faulted ∧ (∀ r, t.reg r = s.reg r) ∧ t.pc = s.pc))

/-- 10_state.md R22, the table of registers read and written, the row of the ALU included. A register outside the
column "writes" keeps its value. An instruction reads no register outside the column "reads": with those others
changed in any way, the memory, the output, `pc`, the status and the fault come out the same, and so does every
register it writes when it completes. -/
def Obligations.RegistersReadAndWrittenAsListed : Prop :=
  (∀ (i : Instr) (s t : State), exec i s = .next t → ∀ q, q ∉ writesRegs i → t.reg q = s.reg q) ∧
  (∀ (i : Instr) (s t : State) (x' : Vector Byte 8), exec i s = .next t →
    (∀ q ∈ readsRegs i, x'[q.val] = s.reg q) →
    ∃ t', exec i { s with x := x' } = .next t' ∧
      t'.mem = t.mem ∧ t'.out = t.out ∧ t'.pc = t.pc ∧ t'.status = t.status ∧ t'.fault = t.fault ∧
      (s.status ≠ .faulted → t.status ≠ .faulted → ∀ q ∈ writesRegs i, t'.reg q = t.reg q)) ∧
  (∀ (a b : RegNum) (s : State), ∀ q, q ≠ a → (alu .add a b s).reg q = s.reg q) ∧
  (∀ (a b : RegNum) (s : State) (x' : Vector Byte 8), x'[a.val] = s.reg a → x'[b.val] = s.reg b →
    (alu .add a b { s with x := x' }).reg a = (alu .add a b s).reg a)

/-- 10_state.md R25 (that `pc` is a natural number that never wraps is the spec's decision D5): no instruction
reads `pc`. Started with another `pc`, an instruction does the same, and its `pc` moves by the same amount: by its
length when it completes, and by 0 only when it faults. -/
def Obligations.ProgramCounterIsNoOperand : Prop :=
  ∀ (i : Instr) (s : State) (p : Nat), ∃ (t : State) (d : Nat),
    ((d = i.len ∧ (s.status ≠ .faulted → t.status ≠ .faulted)) ∨ (d = 0 ∧ t.status = .faulted)) ∧
    exec i s = .next { t with pc := s.pc + d } ∧ exec i { s with pc := p } = .next { t with pc := p + d }

/-! ### Arithmetic -/

/-- 43_arithmetic.md R141: MUL is commutative in its operand values and is multiplication modulo 256; the result
always goes to the register of `operand_a`. -/
def Obligations.MulIsCommutativeWraparound : Prop :=
  ∀ (a b : RegNum) (s s' : State) (u v : Byte),
    s.reg a = u → s.reg b = v → s'.reg a = v → s'.reg b = u →
    ∃ t t', exec (.mul (regByte a) (regByte b)) s = .next t ∧
      exec (.mul (regByte a) (regByte b)) s' = .next t' ∧
      (t.reg a).toNat = u.toNat * v.toNat % 256 ∧ t'.reg a = t.reg a ∧
      (∀ q, q ≠ a → t.reg q = s.reg q)

/-- 43_arithmetic.md R144: ADD of the ALU is addition modulo 256 into the first register; the carry is recorded
nowhere; with `a = b` the register is doubled; it is commutative in its operand values. Nothing else changes; that
`pc` does not is R143 and the spec's decision D14. -/
def Obligations.AluAddWraps : Prop :=
  ∀ (a b : RegNum) (s : State),
    alu .add a b s =
      { s with x := s.x.set a.val (BitVec.ofNat 8 (((s.reg a).toNat + (s.reg b).toNat) % 256)) a.isLt } ∧
    (a = b → ((alu .add a b s).reg a).toNat = 2 * (s.reg a).toNat % 256) ∧
    (∀ s' : State, s'.reg a = s.reg b → s'.reg b = s.reg a →
      (alu .add a b s').reg a = (alu .add a b s).reg a)

/-- 43_arithmetic.md R143 and R146 (the ALU's presence is the spec's decision D14, the set of other tags is the
model's, log 10): every tag but ADD raises `UnsupportedOperation` with that tag, and writes nothing else. -/
def Obligations.AluOtherTagsFault : Prop :=
  ∀ (tag : Nat) (a b : RegNum) (s : State),
    alu (.other tag) a b s = { s with status := .faulted, fault := some (.unsupportedOperation tag) }

/-- 43_arithmetic.md R146 (marked derived there): no event of any run of any instance ever leaves
`UnsupportedOperation` in the fault record. -/
def Obligations.NoProgramReachesUnsupportedOperation : Prop :=
  ∀ (c : Config) (s : State), Reachable c s → ∀ tag, s.fault ≠ some (.unsupportedOperation tag)

/-- 43_arithmetic.md R145 (wrap of SP is the spec's decision D6): the four computations are modulo 256. -/
def Obligations.ArithmeticIsModulo256 : Prop :=
  ∀ u v : Byte,
    (mulByte u v).toNat = u.toNat * v.toNat % 256 ∧ (addByte u v).toNat = (u.toNat + v.toNat) % 256 ∧
    ((decByte u).toNat : Int) = ((u.toNat : Int) - 1) % 256 ∧ (incByte u).toNat = (u.toNat + 1) % 256 ∧
    decByte 0#8 = 255#8 ∧ incByte 255#8 = 0#8

/-! ### Laws of the stack and of LDI and PRN -/

/-- 42_register.md R133 (marked derived there): LDI then PRN on the same register emits the immediate, and the two
steps change nothing else. -/
def Obligations.LdiThenPrnEmitsTheImmediate : Prop :=
  ∀ (s : State) (a v : Byte) (h : a.toNat < 8), s.status = .running → s.pc + 4 < s.cfg.N →
    s.byte s.pc = 0x82#8 → s.byte (s.pc + 1) = a → s.byte (s.pc + 2) = v →
    s.byte (s.pc + 3) = 0x47#8 → s.byte (s.pc + 4) = a →
    runsTo 2 s { s with x := s.x.set a.toNat v h, out := s.out ++ [v], pc := s.pc + 5 }

/-- 44_stack.md R152 (marked derived there): PUSH then POP into a register other than R7 preserves the value and
restores SP. No fault is premised as the bound of the stored address (it can fail only when N < 256). -/
def Obligations.PushThenPopRestores : Prop :=
  ∀ (a b : RegNum) (s : State), a ≠ spReg → b ≠ spReg → s.mem.wf → pushAddr s < s.cfg.N →
    ∃ t u, exec (.push (regByte a)) s = .next t ∧ exec (.pop (regByte b)) t = .next u ∧
      u.reg b = s.reg a ∧ u.reg spReg = s.reg spReg ∧ u.reg a = s.reg a ∧
      u.byte (((s.reg spReg).toNat + 255) % 256) = s.reg a ∧ u.status = s.status ∧ u.fault = s.fault

/-- 44_stack.md R153 (marked derived there): k pushes followed by k pops, k at most 256, into any registers but R7,
leave SP as it was and give the pushed values back in reverse order, SP wrapping through 0 or not. No fault is
premised as N = 256, where none can occur. -/
def Obligations.PushesThenPopsAreLifo : Prop :=
  ∀ (rs qs : List RegNum) (s : State), rs.length = qs.length → rs.length ≤ 256 →
    spReg ∉ rs → spReg ∉ qs → s.cfg.N = 256 → s.mem.wf → s.status ≠ .faulted →
    ∃ t, execSeq (rs.map (fun r => .push (regByte r)) ++ qs.map (fun q => .pop (regByte q))) s = .next t ∧
      t.x = (qs.zip (rs.reverse.map s.reg)).foldl (fun x qv => x.set qv.1.val qv.2 qv.1.isLt) s.x ∧
      t.reg spReg = s.reg spReg ∧ t.pc = s.pc + 4 * rs.length ∧ t.out = s.out ∧ t.status = s.status ∧
      t.fault = s.fault

/-- 20_memory.md R58 (marked derived there): with N = 256 the only fault of an instruction whose bytes are fetched is
an invalid register byte. -/
def Obligations.FullMemoryHasNoStackFault : Prop :=
  ∀ (i : Instr) (s t : State), s.cfg.N = 256 → s.status ≠ .faulted → exec i s = .next t →
    t.status = .faulted → i.wf = false ∧ ∃ b : Byte, 8 ≤ b.toNat ∧ t = s.raise (.outOfBoundsRegister b)

/-- 20_memory.md R66 (marked derived there): a byte stored by PUSH over the next opcode is the byte the next step
fetches; when it is 0x01, that step is HLT. -/
def Obligations.StoredByteIsFetchedNext : Prop :=
  ∀ (r : RegNum) (s t : State), r ≠ spReg → s.mem.wf → s.status = .running → pushAddr s < s.cfg.N →
    pushAddr s = s.pc + 2 → exec (.push (regByte r)) s = .next t →
    (fetchWindow t).head? = some (s.reg r) ∧
    (s.reg r = 0x01#8 → step t = .next { t with status := .halted, pc := s.pc + 3 })

/-! ### The cycle -/

/-- A step of a running core runs the instruction its decoder reads from the bytes at `pc`, and adds nothing
around it (40_execution_cycle.md R100, R105). -/
def Obligations.StepRunsTheDecodedInstruction : Prop :=
  ∀ (s : State) (i : Instr) (rest : List Byte), s.status = .running →
    decode (fetchWindow s) = .ok (i, rest) → step s = exec i s

/-- When the bytes at `pc` are the encoding of `i`, all inside the memory, a step of a running core is `exec i`. -/
def Obligations.StepRunsTheEncodedInstruction : Prop :=
  ∀ (s : State) (i : Instr), s.status = .running → fetches s i → step s = exec i s

/-- 40_execution_cycle.md R101 and R103: the opcode is read at `pc`, the operands at `pc + 1` and then `pc + 2`; the
first of these addresses at or above N is the one the fault reports, and the fetch changes nothing. When all are inside
the memory the instruction with exactly these operand bytes is fetched, valid or not. -/
def Obligations.FetchReadsInAddressOrder : Prop :=
  (∀ s : State, s.status = .running → s.cfg.N ≤ s.pc →
    step s = .next (s.raise (.outOfBoundsMemory s.pc))) ∧
  (∀ (s : State) (n : Nat), s.status = .running → s.pc < s.cfg.N → opcodeLen (s.byte s.pc) = some n →
    2 ≤ n → s.cfg.N ≤ s.pc + 1 → step s = .next (s.raise (.outOfBoundsMemory (s.pc + 1)))) ∧
  (∀ s : State, s.status = .running → s.pc + 1 < s.cfg.N → opcodeLen (s.byte s.pc) = some 3 →
    s.cfg.N ≤ s.pc + 2 → step s = .next (s.raise (.outOfBoundsMemory (s.pc + 2)))) ∧
  (∀ (s : State) (n : Nat), opcodeLen (s.byte s.pc) = some n → s.pc + n ≤ s.cfg.N →
    ∃ i, fetch s = .ok i ∧ i.len = n ∧ fetches s i)

/-- 60_exceptions.md R168 (the order is the spec's decision D10): a step of a running core raises the first fault of
the seven checks, written as `firstFault` from that rule alone, or, when there is none, completes. -/
def Obligations.FaultChecksInOrder : Prop :=
  ∀ s : State, s.status = .running →
    match firstFault s with
    | some f => step s = .next (s.raise f)
    | none => ∃ t, step s = .next t ∧ t.status ≠ .faulted ∧ t.fault = s.fault

/-- 40_execution_cycle.md R100: in `Idle`, `Halted` and `Faulted` the core does nothing and its state does not change
(that this is a next state is the model's choice, log 5). -/
def Obligations.StoppedCoreDoesNothing : Prop :=
  ∀ s : State, s.status ≠ .running → step s = .next s

/-- 40_execution_cycle.md R107: a step of a running core has exactly one of three outcomes and never gets stuck:
an instruction other than HLT completes and the core still runs, HLT completes and it is halted, or it is faulted with
a cause. -/
def Obligations.RunningStepHasOneOfThreeOutcomes : Prop :=
  ∀ s : State, s.status = .running → ∃ t, step s = .next t ∧
    ((t.status = .running ∧ t.fault = s.fault ∧ ∃ i, i ≠ .hlt ∧ fetches s i ∧ exec i s = .next t) ∨
     (t.status = .halted ∧ t.fault = s.fault ∧ fetches s .hlt ∧ exec .hlt s = .next t) ∨
     (t.status = .faulted ∧ ∃ f, t.fault = some f))

/-- 60_exceptions.md R166 (the spec's decision D9): a step that faults changes `status` and `fault` and nothing
else. -/
def Obligations.FaultsArePrecise : Prop :=
  ∀ s t : State, s.status = .running → step s = .next t → t.status = .faulted →
    ∃ f, t = { s with status := .faulted, fault := some f }

/-- 40_execution_cycle.md R105: an instruction that completes advances `pc` by its own length, 1, 2 or 3, and by
nothing else; a step that faults does not advance it. -/
def Obligations.CompletedStepAdvancesByItsLength : Prop :=
  (∀ s t : State, s.status = .running → step s = .next t →
    (t.status = .faulted ∧ t.pc = s.pc) ∨
    (t.status ≠ .faulted ∧ ∃ i, fetches s i ∧ i.wf = true ∧ t.pc = s.pc + i.len)) ∧
  Instr.len .hlt = 1 ∧ (∀ a, Instr.len (.prn a) = 2) ∧ (∀ a, Instr.len (.push a) = 2) ∧
  (∀ a, Instr.len (.pop a) = 2) ∧ (∀ a imm, Instr.len (.ldi a imm) = 3) ∧ (∀ a b, Instr.len (.mul a b) = 3)

/-- 40_execution_cycle.md R110 (marked derived there): from any running state whose `pc` is in [0, N], the run stops,
halted or faulted, after at most as many steps as there are cells from `pc` on, plus one faulting step. -/
def Obligations.EveryRunStops : Prop :=
  ∀ s : State, s.status = .running → s.pc ≤ s.cfg.N →
    ∃ k t, k ≤ s.cfg.N - s.pc + 1 ∧ (endsHalted k s t ∨ ∃ f, endsFaulted k s f t)

/-- 70_reset_and_hazards.md R201 with R109 and R110: every launched program, within N + 1 steps, comes to exactly one
end; it is a valid program exactly when that end is `Halted`. That the later steps of an ended run answer its end
again is the model's choice (log 5), and so is that `validProgram` tests nothing of point (e) of R201, stack use
clear of the code (log 25). -/
def Obligations.LaunchedProgramHasOneEnd : Prop :=
  ∀ (c : Config) (bytes : List Byte) (s : State), launch c bytes = some s →
    ∃ k t, k ≤ c.N + 1 ∧ (endsHalted k s t ∨ ∃ f, endsFaulted k s f t) ∧
      (∀ j u, (endsHalted j s u ∨ ∃ f, endsFaulted j s f u) → u = t) ∧
      (∀ j, runsTo (k + j) s t) ∧ (validProgram c bytes ↔ t.status = .halted)

/-! ### The invariant -/

/-- The invariant holds right after reset, of every instance and of the default one. -/
def Obligations.InvariantHoldsAtReset : Prop :=
  (∀ c : Config, (State.resetWith c).Inv) ∧ State.reset.Inv

/-- Every step keeps the invariant: `pc` in [0, N], the memory in canonical form and below N, a fault record exactly
while `Faulted` and in the range of 60_exceptions.md R161, an `Idle` core as reset left it. -/
def Obligations.StepKeepsTheInvariant : Prop :=
  ∀ s t : State, s.Inv → step s = .next t → t.Inv

/-- Every operation of the host keeps the invariant. -/
def Obligations.HostKeepsTheInvariant : Prop :=
  ∀ (op : HostOp) (s : State), s.Inv → (hostStep op s).Inv

/-! ### Rules of the whole machine -/

/-- 41_control_flow.md R121: `Halted` is entered only by executing HLT, and the host cannot stop a running core
except by reset. -/
def Obligations.OnlyHltHalts : Prop :=
  (∀ s t : State, step s = .next t → t.status = .halted → s.status ≠ .halted →
    s.status = .running ∧ fetches s .hlt) ∧
  (∀ (op : HostOp) (s : State), (hostStep op s).status = .halted → s.status = .halted) ∧
  (∀ (op : HostOp) (s : State), s.status = .running → op ≠ .reset → (hostStep op s).status = .running)

/-- 10_state.md R32: the only transitions of `status`, with their causes, over everything that can happen. -/
def Obligations.StatusMovesOnlyAsListed : Prop :=
  ∀ (e : Event) (s t : State), applyEvent e s = .next t →
    (e = .host .reset ∧ t.status = .idle) ∨
    (e = .host .start ∧ s.status = .idle ∧ t.status = .running) ∨
    (e = .coreStep ∧ s.status = .running ∧
      ((t.status = .running ∧ ∃ i, i ≠ .hlt ∧ fetches s i ∧ exec i s = .next t) ∨
       (t.status = .halted ∧ fetches s .hlt ∧ exec .hlt s = .next t) ∨
       (t.status = .faulted ∧ ∃ f, t = s.raise f))) ∨
    (t.status = s.status ∧ ¬ (e = .coreStep ∧ s.status = .running) ∧ (e = .coreStep → t = s))

/-- 10_state.md R34 (that the output is kept as a list is the spec's decision D11): only PRN appends to the output,
one value, the register it names; only reset removes. -/
def Obligations.OnlyPrnEmits : Prop :=
  (∀ s t : State, step s = .next t →
    t.out = s.out ∨ ∃ r : RegNum, s.status = .running ∧ fetches s (.prn (regByte r)) ∧ t.out = s.out ++ [s.reg r]) ∧
  (∀ (op : HostOp) (s : State), op ≠ .reset → (hostStep op s).out = s.out)

/-- 10_state.md R35: memory is changed only by PUSH while running, at the one address it stores to, and by `load`
while idle; reset clears it. -/
def Obligations.OnlyPushAndLoadChangeMemory : Prop :=
  (∀ s t : State, step s = .next t → ∀ c, t.byte c ≠ s.byte c →
    s.status = .running ∧ c = pushAddr s ∧ ∃ a, fetches s (.push a)) ∧
  (∀ (op : HostOp) (s : State) (c : Nat), (hostStep op s).byte c ≠ s.byte c →
    op = .reset ∨ ∃ bytes, op = .load bytes ∧ s.status = .idle ∧ s.loaded = false ∧ c < bytes.length)

/-- The parameters of an instance never change, whatever happens (10_state.md R36; that the state carries them is the
model's choice, log 1). -/
def Obligations.InstanceNeverChanges : Prop :=
  ∀ (c : Config) (s : State), Reachable c s → s.cfg = c

/-! ### The host interface -/

/-- 70_reset_and_hazards.md R190 and 10_state.md R40, from any state (R7 is the spec's decision D3, R0 to R6 D4,
`status` D7, `fault` D8, `out` D11; `loaded` is the model's, log 8). The last line is about the default instance
alone: its N = 256 is the default of 00_scope.md R6 (D2, log 2), its R7 = 255 that of D3 (log 3). -/
def Obligations.ResetSetsEveryPieceOfState : Prop :=
  (∀ s : State, (hostReset s).cfg = s.cfg ∧ (∀ r : RegNum, r ≠ spReg → (hostReset s).reg r = 0#8) ∧
    (hostReset s).reg spReg = s.cfg.spInit ∧ (hostReset s).pc = 0 ∧ (∀ a, (hostReset s).byte a = 0#8) ∧
    (hostReset s).status = .idle ∧ (hostReset s).fault = none ∧ (hostReset s).out = [] ∧
    (hostReset s).loaded = false) ∧
  State.reset.cfg.N = 256 ∧ State.reset.reg spReg = 255#8 ∧ hostReset State.reset = State.reset

/-- 70_reset_and_hazards.md R196 (refusing a program longer than the memory is the spec's decision D16): `load` puts
byte i at address i and leaves the other cells 0; it changes nothing else but the note that it was accepted; it is
refused whole when too long, and at most once accepted. The memory is all zero before (the invariant). -/
def Obligations.LoadWritesTheProgram : Prop :=
  (∀ (bytes : List Byte) (s : State), s.Inv → s.status = .idle → s.loaded = false → bytes.length ≤ s.cfg.N →
    (∀ a, (hostLoad bytes s).byte a = (bytes[a]?).getD 0#8) ∧
    ∃ m, hostLoad bytes s = { s with mem := m, loaded := true }) ∧
  (∀ (bytes : List Byte) (s : State), s.cfg.N < bytes.length → hostLoad bytes s = s) ∧
  (∀ (bytes more : List Byte) (s : State), loadAccepted s bytes = true →
    hostLoad more (hostLoad bytes s) = hostLoad bytes s)

/-- 70_reset_and_hazards.md R197 (the spec's decision D12): `start` sets `status` in `Idle` and changes nothing else;
elsewhere it is ignored. -/
def Obligations.StartOnlyFromIdle : Prop :=
  (∀ s : State, s.status = .idle → hostStart s = { s with status := .running }) ∧
  (∀ s : State, s.status ≠ .idle → hostStart s = s)

/-- 10_state.md R41 (marked derived there): the state in which execution begins. The last clause is no part of R41:
a program longer than the memory is refused whole (70_reset_and_hazards.md R196, the spec's decision D16) and the
host must not start it (R198 b); that `launch` then answers none is the model's choice (log 22). -/
def Obligations.LaunchStateIsAsListed : Prop :=
  ∀ (c : Config) (bytes : List Byte),
    (bytes.length ≤ c.N → ∃ s, launch c bytes = some s ∧ s.cfg = c ∧
      (∀ r : RegNum, r ≠ spReg → s.reg r = 0#8) ∧ s.reg spReg = c.spInit ∧ s.pc = 0 ∧
      (∀ i (h : i < bytes.length), s.byte i = bytes[i]) ∧ (∀ i, bytes.length ≤ i → s.byte i = 0#8) ∧
      s.status = .running ∧ s.fault = none ∧ s.out = []) ∧
    (c.N < bytes.length → launch c bytes = none)

/-- 70_reset_and_hazards.md R199: nothing the host does but reset changes a core that is running, halted or faulted,
and a read changes no state at all. -/
def Obligations.HostOnlyReadsACoreThatStarted : Prop :=
  (∀ (op : HostOp) (s : State), s.status ≠ .idle → op ≠ .reset → hostStep op s = s) ∧
  (∀ (q : HostQuery) (s : State), hostStep (.read q) s = s)

/-- What each read of the host answers, and that none changes the state: the plain reads of `out`, `status`, `fault`,
`pc`, registers and cells are 70_reset_and_hazards.md R195 and R199 (the spec's decision D12), the trace is
60_exceptions.md R180 (absent cells are D15), the codes are R161 (D8), and a plain read of a cell that is not there is
the model's (log 13). The trace shows `pc`, the three cells from `pc` on, absent at or above N, and the register file. -/
def Obligations.HostReadsShowTheState : Prop :=
  (∀ (q : HostQuery) (s : State), hostStep (.read q) s = s) ∧
  (∀ s : State, hostAnswer s .out = .values s.out ∧ hostAnswer s .status = .statusIs s.status ∧
    hostAnswer s .pc = .number s.pc ∧ ∀ r, hostAnswer s (.register r) = .byte (some s.x[r.val])) ∧
  (∀ (s : State) (a : Nat), hostAnswer s (.cell a) = .byte (if s.cfg.N ≤ a then none else some (s.byte a))) ∧
  (∀ s : State, ∃ code, hostAnswer s .fault = .faultIs code s.fault ∧
    (s.fault = none → code = 0) ∧ (∀ a, s.fault = some (.outOfBoundsMemory a) → code = 1) ∧
    (∀ b, s.fault = some (.outOfBoundsRegister b) → code = 2) ∧
    (∀ p b, s.fault = some (.unrecognizedOpcode p b) → code = 3) ∧
    (∀ tag, s.fault = some (.unsupportedOperation tag) → code = 4)) ∧
  (∀ s : State, ∃ view, hostAnswer s .trace = .traceIs view ∧
    view.pc = s.pc ∧ view.x = s.x ∧ view.cells.length = 3 ∧
    ∀ k (h : k < view.cells.length),
      view.cells[k] = if s.cfg.N ≤ s.pc + k then none else some (s.byte (s.pc + k)))

/-- 30_encoding.md R94: a blank or comment-only line makes no difference, wherever it stands; the bytes go into
Memory from address 0 on, in file order. -/
def Obligations.LoaderSkipsBlankAndCommentLines : Prop :=
  (∀ before line after : List Char, blankOrComment line →
    parseProgram (before ++ '\n' :: (line ++ '\n' :: after)) = parseProgram (before ++ '\n' :: after) ∧
    parseProgram (line ++ '\n' :: after) = parseProgram after) ∧
  (∀ first after : List Char, (∀ c ∈ first, c ≠ '\n') → ∀ v, readLine first = .byte v →
    parseProgram (first ++ '\n' :: after) = (parseProgram after).map (fun bytes => v :: bytes)) ∧
  (∀ (c : Config) (text : List Char) (s : State), bringUp c text = some s →
    ∃ bytes, parseProgram text = some bytes ∧ ∀ i (h : i < bytes.length), s.byte i = bytes[i])

/-- 30_encoding.md R93 and R95 (which numerals are accepted is the spec's decision D20; what is white space is the
model's, log 14): 1 to 8 binary digits, with white space around them and a comment after them, are their value; more
than 8 digits, or a significant part with any other character, is a load error. -/
def Obligations.LoaderReadsBinaryNumerals : Prop :=
  (∀ (before after tail : List Char) (ds : List Bool),
    (∀ c ∈ before, c.isWhitespace = true) → (∀ c ∈ after, c.isWhitespace = true) →
    (tail = [] ∨ ∃ r, tail = '#' :: r) → ds ≠ [] →
    readLine (before ++ ds.map bitChar ++ after ++ tail) =
      if ds.length ≤ 8 then .byte (BitVec.ofNat 8 (bitsValue ds)) else .bad) ∧
  (∀ line : List Char, (∃ c ∈ significant line, c ≠ '0' ∧ c ≠ '1') → readLine line = .bad)

/-- 70_reset_and_hazards.md R198 b and 60_exceptions.md R164: a host that does its duty does not start the core after
a load error, or after a program longer than the memory (refused whole, the spec's decision D16). That `bringUp`
does this duty and answers none is the model's choice (log 22). The core itself checks nothing: `hostStart` after a
failed load is accepted in `Idle` as ever. -/
def Obligations.FailedLoadNeverStarts : Prop :=
  (∀ (c : Config) (text : List Char), parseProgram text = none → bringUp c text = none) ∧
  (∀ (c : Config) (text : List Char) (bytes : List Byte), parseProgram text = some bytes →
    c.N < bytes.length → bringUp c text = none) ∧
  (∀ ls ls' : List (List Char), ∀ l, readLine l = .bad → readLines (ls ++ l :: ls') = none)

/-- 42_register.md R134: each value is one line, in execution order, its decimal numeral with no leading zeros. -/
def Obligations.ConsoleLinesAreDecimal : Prop :=
  (∀ out : List Byte, (renderOut out).map digitsValue = out.map BitVec.toNat) ∧
  (∀ (out : List Byte) (line : List Char), line ∈ renderOut out →
    line = ['0'] ∨ ∃ d ds, line = d :: ds ∧ d ≠ '0' ∧ ∀ c ∈ line, c.isDigit = true)
end

