-- ==== Sys2Proof/Laws/State.lean ====
section
/-! SUPPORT. Reading back each field after each update of the state, all by unfolding once. -/

namespace Sys2Proof.Machine

variable (s : State) (r q : RegNum) (v : Byte) (a n : Nat) (f : FaultRecord)

@[simp] theorem State.setReg_cfg : (s.setReg r v).cfg = s.cfg := rfl
@[simp] theorem State.setReg_pc : (s.setReg r v).pc = s.pc := rfl
@[simp] theorem State.setReg_mem : (s.setReg r v).mem = s.mem := rfl
@[simp] theorem State.setReg_status : (s.setReg r v).status = s.status := rfl
@[simp] theorem State.setReg_fault : (s.setReg r v).fault = s.fault := rfl
@[simp] theorem State.setReg_out : (s.setReg r v).out = s.out := rfl
@[simp] theorem State.setReg_loaded : (s.setReg r v).loaded = s.loaded := rfl
@[simp] theorem State.setReg_byte : (s.setReg r v).byte a = s.byte a := rfl
@[simp] theorem State.setReg_reg : (s.setReg r v).reg q = if r = q then v else s.reg q := by
  simp [State.setReg, State.reg, Vector.getElem_set, Fin.ext_iff]

@[simp] theorem State.advance_cfg : (s.advance n).cfg = s.cfg := rfl
@[simp] theorem State.advance_x : (s.advance n).x = s.x := rfl
@[simp] theorem State.advance_pc : (s.advance n).pc = s.pc + n := rfl
@[simp] theorem State.advance_mem : (s.advance n).mem = s.mem := rfl
@[simp] theorem State.advance_status : (s.advance n).status = s.status := rfl
@[simp] theorem State.advance_fault : (s.advance n).fault = s.fault := rfl
@[simp] theorem State.advance_out : (s.advance n).out = s.out := rfl
@[simp] theorem State.advance_loaded : (s.advance n).loaded = s.loaded := rfl
@[simp] theorem State.advance_byte : (s.advance n).byte a = s.byte a := rfl
@[simp] theorem State.advance_reg : (s.advance n).reg q = s.reg q := rfl

@[simp] theorem State.emit_cfg : (s.emit v).cfg = s.cfg := rfl
@[simp] theorem State.emit_x : (s.emit v).x = s.x := rfl
@[simp] theorem State.emit_pc : (s.emit v).pc = s.pc := rfl
@[simp] theorem State.emit_mem : (s.emit v).mem = s.mem := rfl
@[simp] theorem State.emit_status : (s.emit v).status = s.status := rfl
@[simp] theorem State.emit_fault : (s.emit v).fault = s.fault := rfl
@[simp] theorem State.emit_out : (s.emit v).out = s.out ++ [v] := rfl
@[simp] theorem State.emit_loaded : (s.emit v).loaded = s.loaded := rfl
@[simp] theorem State.emit_byte : (s.emit v).byte a = s.byte a := rfl
@[simp] theorem State.emit_reg : (s.emit v).reg q = s.reg q := rfl

@[simp] theorem State.store_cfg : (s.store a v).cfg = s.cfg := rfl
@[simp] theorem State.store_x : (s.store a v).x = s.x := rfl
@[simp] theorem State.store_pc : (s.store a v).pc = s.pc := rfl
@[simp] theorem State.store_mem : (s.store a v).mem = s.mem.set a v := rfl
@[simp] theorem State.store_status : (s.store a v).status = s.status := rfl
@[simp] theorem State.store_fault : (s.store a v).fault = s.fault := rfl
@[simp] theorem State.store_out : (s.store a v).out = s.out := rfl
@[simp] theorem State.store_loaded : (s.store a v).loaded = s.loaded := rfl
@[simp] theorem State.store_reg : (s.store a v).reg q = s.reg q := rfl

@[simp] theorem State.halt_cfg : s.halt.cfg = s.cfg := rfl
@[simp] theorem State.halt_x : s.halt.x = s.x := rfl
@[simp] theorem State.halt_pc : s.halt.pc = s.pc := rfl
@[simp] theorem State.halt_mem : s.halt.mem = s.mem := rfl
@[simp] theorem State.halt_status : s.halt.status = .halted := rfl
@[simp] theorem State.halt_fault : s.halt.fault = s.fault := rfl
@[simp] theorem State.halt_out : s.halt.out = s.out := rfl
@[simp] theorem State.halt_loaded : s.halt.loaded = s.loaded := rfl
@[simp] theorem State.halt_byte : s.halt.byte a = s.byte a := rfl
@[simp] theorem State.halt_reg : s.halt.reg q = s.reg q := rfl

@[simp] theorem State.raise_cfg : (s.raise f).cfg = s.cfg := rfl
@[simp] theorem State.raise_x : (s.raise f).x = s.x := rfl
@[simp] theorem State.raise_pc : (s.raise f).pc = s.pc := rfl
@[simp] theorem State.raise_mem : (s.raise f).mem = s.mem := rfl
@[simp] theorem State.raise_status : (s.raise f).status = .faulted := rfl
@[simp] theorem State.raise_fault : (s.raise f).fault = some f := rfl
@[simp] theorem State.raise_out : (s.raise f).out = s.out := rfl
@[simp] theorem State.raise_loaded : (s.raise f).loaded = s.loaded := rfl
@[simp] theorem State.raise_byte : (s.raise f).byte a = s.byte a := rfl
@[simp] theorem State.raise_reg : (s.raise f).reg q = s.reg q := rfl

@[simp] theorem State.resetWith_cfg (c : Config) : (State.resetWith c).cfg = c := rfl
@[simp] theorem State.resetWith_x (c : Config) : (State.resetWith c).x = resetRegs c := rfl
@[simp] theorem State.resetWith_pc (c : Config) : (State.resetWith c).pc = 0 := rfl
@[simp] theorem State.resetWith_mem (c : Config) : (State.resetWith c).mem = [] := rfl
@[simp] theorem State.resetWith_status (c : Config) : (State.resetWith c).status = .idle := rfl
@[simp] theorem State.resetWith_fault (c : Config) : (State.resetWith c).fault = none := rfl
@[simp] theorem State.resetWith_out (c : Config) : (State.resetWith c).out = [] := rfl
@[simp] theorem State.resetWith_loaded (c : Config) : (State.resetWith c).loaded = false := rfl

/-- Two register files that read the same are the same. -/
theorem State.x_ext {s t : State} (h : ∀ r, s.reg r = t.reg r) : s.x = t.x :=
  Vector.ext fun i hi => h ⟨i, hi⟩

end Sys2Proof.Machine
end

