-- ==== Sys2Proof/Laws/Ops.lean ====
section
/-! SUPPORT. What each shared operation can do, said once. -/

namespace Sys2Proof.Machine

variable {s t : State} {a : Nat} {b v : Byte}

theorem memRead_ok (h : a < s.cfg.N) : memRead s a = .ok (s.byte a) := if_pos h

theorem memRead_error (h : s.cfg.N ≤ a) : memRead s a = .error (.outOfBoundsMemory a) :=
  if_neg (Nat.not_lt.2 h)

theorem memWrite_ok (h : a < s.cfg.N) : memWrite s a v = .ok (s.store a v) := if_pos h

theorem memWrite_error (h : s.cfg.N ≤ a) : memWrite s a v = .error (.outOfBoundsMemory a) :=
  if_neg (Nat.not_lt.2 h)

theorem regIdx_ok (h : b.toNat < 8) : regIdx b = .ok ⟨b.toNat, h⟩ := dif_pos h

theorem regIdx_error (h : 8 ≤ b.toNat) : regIdx b = .error (.outOfBoundsRegister b) :=
  dif_neg (Nat.not_lt.2 h)

/-- How an instruction ends: it completes, or it raises one fault and writes nothing else. -/
theorem complete_cases {e : Except FaultRecord State} (h : complete s e = .next t) :
    e = .ok t ∨ ∃ f, e = .error f ∧ t = s.raise f := by
  cases e with
  | ok u => exact .inl (by simpa [complete] using h)
  | error f => exact .inr ⟨f, rfl, by simpa [complete] using h.symm⟩

@[simp] theorem complete_ok : complete s (.ok t) = .next t := rfl

@[simp] theorem complete_error (f : FaultRecord) : complete s (.error f) = .next (s.raise f) := rfl

end Sys2Proof.Machine
end

