-- ==== Sys2Proof/Laws/Decode.lean ====
section
/-! SUPPORT. Inversion of the opcode table, of operand taking, and of the window the fetch decodes. -/

namespace Sys2Proof

/-- A byte that the table finds is the opcode of one of its rows. -/
theorem lookupOpcode_some {b : Byte} {row : OpRow} (h : lookupOpcode b = some row) :
    row ∈ opcodeTable ∧ row.opcode = b :=
  ⟨List.mem_of_find?_eq_some h, by simpa using List.find?_some h⟩

/-- The six rows, one by one. -/
theorem lookupOpcode_cases {b : Byte} {row : OpRow} (h : lookupOpcode b = some row) :
    (b = 0x01#8 ∧ row = ⟨0x01#8, .hlt, .z⟩) ∨ (b = 0x82#8 ∧ row = ⟨0x82#8, .ldi, .ri⟩) ∨
    (b = 0x47#8 ∧ row = ⟨0x47#8, .prn, .r⟩) ∨ (b = 0xA2#8 ∧ row = ⟨0xA2#8, .mul, .rr⟩) ∨
    (b = 0x45#8 ∧ row = ⟨0x45#8, .push, .r⟩) ∨ (b = 0x46#8 ∧ row = ⟨0x46#8, .pop, .r⟩) := by
  obtain ⟨hmem, rfl⟩ := lookupOpcode_some h
  simp only [opcodeTable, List.mem_cons, List.not_mem_nil, or_false] at hmem
  rcases hmem with rfl | rfl | rfl | rfl | rfl | rfl <;> simp

theorem takeOne_ok_iff {mk : Byte → Instr} {bytes rest : List Byte} {i : Instr} :
    takeOne mk bytes = .ok (i, rest) ↔ ∃ a, bytes = a :: rest ∧ i = mk a := by
  cases bytes with
  | nil => simp [takeOne]
  | cons a l => simp [takeOne, eq_comm, and_comm]

theorem takeTwo_ok_iff {mk : Byte → Byte → Instr} {bytes rest : List Byte} {i : Instr} :
    takeTwo mk bytes = .ok (i, rest) ↔ ∃ a b, bytes = a :: b :: rest ∧ i = mk a b := by
  match bytes with
  | [] => simp [takeTwo]
  | [a] => simp [takeTwo]
  | a :: b :: l =>
    simp only [takeTwo, Except.ok.injEq, Prod.mk.injEq, List.cons.injEq]
    constructor
    · rintro ⟨rfl, rfl⟩; exact ⟨a, b, ⟨rfl, rfl, rfl⟩, rfl⟩
    · rintro ⟨_, _, ⟨rfl, rfl, rfl⟩, rfl⟩; exact ⟨rfl, rfl⟩

theorem takeOne_error_iff {mk : Byte → Instr} {bytes : List Byte} {e : DecodeError} :
    takeOne mk bytes = .error e ↔ bytes = [] ∧ e = .missingByte 1 := by
  cases bytes <;> simp [takeOne, eq_comm]

theorem takeTwo_error_iff {mk : Byte → Byte → Instr} {bytes : List Byte} {e : DecodeError} :
    takeTwo mk bytes = .error e ↔ bytes.length < 2 ∧ e = .missingByte (bytes.length + 1) := by
  match bytes with
  | [] => simp [takeTwo, eq_comm]
  | [a] => simp [takeTwo, eq_comm]
  | a :: b :: l => simp [takeTwo]

namespace Machine

variable {s : State}

theorem readUpTo_step {k a : Nat} (h : a < s.cfg.N) :
    readUpTo s (k + 1) a = s.byte a :: readUpTo s k (a + 1) := by
  simp [readUpTo, memRead_ok h]

theorem readUpTo_end {k a : Nat} (h : s.cfg.N ≤ a) : readUpTo s k a = [] := by
  cases k with
  | zero => rfl
  | succ k => simp [readUpTo, memRead_error h]

/-- Every byte read is the cell at its address, and inside the memory. -/
theorem readUpTo_get : ∀ (k a j : Nat) (h : j < (readUpTo s k a).length),
    (readUpTo s k a)[j] = s.byte (a + j) ∧ a + j < s.cfg.N := by
  intro k
  induction k with
  | zero => intro a j h; exact absurd h (by simp [readUpTo])
  | succ k ih =>
    intro a j h
    rcases Nat.lt_or_ge a s.cfg.N with ha | ha
    · simp only [readUpTo_step ha] at h ⊢
      cases j with
      | zero => exact ⟨rfl, ha⟩
      | succ j =>
        have := ih (a + 1) j (by simpa using h)
        simpa only [List.getElem_cons_succ, Nat.add_assoc, Nat.add_comm 1 j] using this
    · simp only [readUpTo_end ha] at h; exact absurd h (by simp)

/-- As many bytes are read as there are cells, up to the number asked for. -/
theorem readUpTo_length : ∀ (k a n : Nat), n ≤ k → a + n ≤ s.cfg.N → n ≤ (readUpTo s k a).length := by
  intro k
  induction k with
  | zero => intros; omega
  | succ k ih =>
    intro a n hn hN
    cases n with
    | zero => omega
    | succ n =>
      rw [readUpTo_step (by omega)]
      have := ih (a + 1) n (by omega) (by omega)
      simp only [List.length_cons]
      omega

/-- The three windows a fetch inside the memory can see. -/
theorem fetchWindow_cases (h : s.pc < s.cfg.N) :
    (s.pc + 1 = s.cfg.N ∧ fetchWindow s = [s.byte s.pc]) ∨
    (s.pc + 2 = s.cfg.N ∧ fetchWindow s = [s.byte s.pc, s.byte (s.pc + 1)]) ∨
    (s.pc + 2 < s.cfg.N ∧ fetchWindow s = [s.byte s.pc, s.byte (s.pc + 1), s.byte (s.pc + 2)]) := by
  have hnil : ∀ a, readUpTo s 0 a = [] := fun _ => rfl
  rcases (by omega : s.pc + 1 = s.cfg.N ∨ s.pc + 2 = s.cfg.N ∨ s.pc + 2 < s.cfg.N) with h1 | h1 | h1
  · exact .inl ⟨h1, by
      simp [fetchWindow, readUpTo_step h, readUpTo_end (show s.cfg.N ≤ s.pc + 1 by omega)]⟩
  · exact .inr (.inl ⟨h1, by
      simp [fetchWindow, readUpTo_step h, readUpTo_step (show s.pc + 1 < s.cfg.N by omega),
        readUpTo_end (show s.cfg.N ≤ s.pc + 1 + 1 by omega)]⟩)
  · exact .inr (.inr ⟨h1, by
      simp [fetchWindow, readUpTo_step h, readUpTo_step (show s.pc + 1 < s.cfg.N by omega),
        readUpTo_step (show s.pc + 1 + 1 < s.cfg.N by omega), hnil]⟩)

theorem fetchWindow_head (h : s.pc < s.cfg.N) :
    fetchWindow s = s.byte s.pc :: readUpTo s 2 (s.pc + 1) := readUpTo_step h

end Machine

end Sys2Proof
end

