-- ==== Sys2Proof/Laws/Exec.lean ====
section
/-! SUPPORT. The two ways each instruction can end, in terms of the named operations: it completes, or it raises
the one fault its operands call for. Later proofs take an instruction apart with these and unfold no meaning. -/

namespace Sys2Proof.Machine

variable (a b imm : Byte) (s : State)

theorem exec_hlt : exec .hlt s = .next (s.halt.advance 1) := rfl

theorem exec_ldi_cases :
    (∃ h : a.toNat < 8, exec (.ldi a imm) s = .next ((s.setReg ⟨a.toNat, h⟩ imm).advance 3)) ∨
    (8 ≤ a.toNat ∧ exec (.ldi a imm) s = .next (s.raise (.outOfBoundsRegister a))) := by
  rcases Nat.lt_or_ge a.toNat 8 with h | h
  · exact .inl ⟨h, by simp [exec, execLdi, regIdx_ok h, bind, Except.bind, immediate]⟩
  · exact .inr ⟨h, by simp [exec, execLdi, regIdx_error h, bind, Except.bind]⟩

theorem exec_prn_cases :
    (∃ h : a.toNat < 8, exec (.prn a) s = .next ((s.emit (s.reg ⟨a.toNat, h⟩)).advance 2)) ∨
    (8 ≤ a.toNat ∧ exec (.prn a) s = .next (s.raise (.outOfBoundsRegister a))) := by
  rcases Nat.lt_or_ge a.toNat 8 with h | h
  · exact .inl ⟨h, by simp [exec, execPrn, regIdx_ok h, bind, Except.bind]⟩
  · exact .inr ⟨h, by simp [exec, execPrn, regIdx_error h, bind, Except.bind]⟩

theorem exec_mul_cases :
    (∃ (ha : a.toNat < 8) (hb : b.toNat < 8), exec (.mul a b) s =
      .next ((s.setReg ⟨a.toNat, ha⟩
        (mulByte (s.reg ⟨a.toNat, ha⟩) (s.reg ⟨b.toNat, hb⟩))).advance 3)) ∨
    (8 ≤ a.toNat ∧ exec (.mul a b) s = .next (s.raise (.outOfBoundsRegister a))) ∨
    (a.toNat < 8 ∧ 8 ≤ b.toNat ∧ exec (.mul a b) s = .next (s.raise (.outOfBoundsRegister b))) := by
  rcases Nat.lt_or_ge a.toNat 8 with h | h
  · rcases Nat.lt_or_ge b.toNat 8 with h' | h'
    · exact .inl ⟨h, h', by simp [exec, execMul, regIdx_ok h, regIdx_ok h', bind, Except.bind]⟩
    · exact .inr (.inr ⟨h, h', by simp [exec, execMul, regIdx_ok h, regIdx_error h', bind, Except.bind]⟩)
  · exact .inr (.inl ⟨h, by simp [exec, execMul, regIdx_error h, bind, Except.bind]⟩)

theorem exec_push_cases :
    (∃ h : a.toNat < 8, pushAddr s < s.cfg.N ∧ exec (.push a) s =
      .next (((s.store (pushAddr s) (pushValue s ⟨a.toNat, h⟩)).setReg spReg (pushSp s)).advance 2)) ∨
    (8 ≤ a.toNat ∧ exec (.push a) s = .next (s.raise (.outOfBoundsRegister a))) ∨
    (a.toNat < 8 ∧ s.cfg.N ≤ pushAddr s ∧
      exec (.push a) s = .next (s.raise (.outOfBoundsMemory (pushAddr s)))) := by
  rcases Nat.lt_or_ge a.toNat 8 with h | h
  · rcases Nat.lt_or_ge (pushAddr s) s.cfg.N with h' | h'
    · exact .inl ⟨h, h', by simp [exec, execPush, regIdx_ok h, memWrite_ok h', bind, Except.bind]⟩
    · exact .inr (.inr ⟨h, h', by simp [exec, execPush, regIdx_ok h, memWrite_error h', bind, Except.bind]⟩)
  · exact .inr (.inl ⟨h, by simp [exec, execPush, regIdx_error h, bind, Except.bind]⟩)

theorem exec_pop_cases :
    (∃ h : a.toNat < 8, popAddr s < s.cfg.N ∧ exec (.pop a) s =
      .next (((s.setReg ⟨a.toNat, h⟩ (s.byte (popAddr s))).setReg spReg
        (incByte ((s.setReg ⟨a.toNat, h⟩ (s.byte (popAddr s))).reg spReg))).advance 2)) ∨
    (8 ≤ a.toNat ∧ exec (.pop a) s = .next (s.raise (.outOfBoundsRegister a))) ∨
    (a.toNat < 8 ∧ s.cfg.N ≤ popAddr s ∧
      exec (.pop a) s = .next (s.raise (.outOfBoundsMemory (popAddr s)))) := by
  rcases Nat.lt_or_ge a.toNat 8 with h | h
  · rcases Nat.lt_or_ge (popAddr s) s.cfg.N with h' | h'
    · exact .inl ⟨h, h', by simp [exec, execPop, regIdx_ok h, memRead_ok h', bind, Except.bind]⟩
    · exact .inr (.inr ⟨h, h', by simp [exec, execPop, regIdx_ok h, memRead_error h', bind, Except.bind]⟩)
  · exact .inr (.inl ⟨h, by simp [exec, execPop, regIdx_error h, bind, Except.bind]⟩)

/-- An instruction always answers a next state. -/
theorem exec_next (i : Instr) : ∃ t, exec i s = .next t := by
  cases i with
  | hlt => exact ⟨_, rfl⟩
  | ldi a imm => rcases exec_ldi_cases a imm s with ⟨_, e⟩ | ⟨_, e⟩ <;> exact ⟨_, e⟩
  | prn a => rcases exec_prn_cases a s with ⟨_, e⟩ | ⟨_, e⟩ <;> exact ⟨_, e⟩
  | mul a b => rcases exec_mul_cases a b s with ⟨_, _, e⟩ | ⟨_, e⟩ | ⟨_, _, e⟩ <;> exact ⟨_, e⟩
  | push a => rcases exec_push_cases a s with ⟨_, _, e⟩ | ⟨_, e⟩ | ⟨_, _, e⟩ <;> exact ⟨_, e⟩
  | pop a => rcases exec_pop_cases a s with ⟨_, _, e⟩ | ⟨_, e⟩ | ⟨_, _, e⟩ <;> exact ⟨_, e⟩

end Sys2Proof.Machine
end

