-- ==== Sys2Proof/Laws/Memory.lean ====
section
/-! SUPPORT. The laws of the memory: read after write, and every memory operation keeps the canonical form and
stays inside the memory. -/

namespace Sys2Proof.Machine

/-- Every listed address is below `n`. -/
abbrev Memory.below (m : Memory) (n : Nat) : Prop := ∀ c ∈ m, c.1 < n

@[simp] theorem Memory.get_nil (a : Nat) : Memory.get [] a = 0#8 := rfl

theorem Memory.get_of_lt_head {m : Memory} {a : Nat} (h : ∀ c ∈ m, a < c.1) : m.get a = 0#8 := by
  induction m with
  | nil => rfl
  | cons c m ih =>
    have hc := h c (by simp)
    simp only [Memory.get, Nat.ne_of_lt hc, if_false]
    exact ih fun d hd => h d (by simp [hd])

theorem Memory.wf_tail {c : Host.Cell} {m : Memory} (h : Memory.wf (c :: m)) : m.wf :=
  ⟨h.1.of_cons, fun d hd => h.2 d (by simp [hd])⟩

theorem Memory.wf_head_lt {c : Host.Cell} {m : Memory} (h : Memory.wf (c :: m)) : ∀ d ∈ m, c.1 < d.1 :=
  (List.pairwise_cons.1 h.1).1

/-- A write leaves every other cell alone. -/
theorem Memory.get_set_other (m : Memory) {a c : Nat} (v : Byte) (h : c ≠ a) :
    (m.set a v).get c = m.get c := by
  induction m with
  | nil => by_cases hv : v = 0#8 <;> simp [Memory.set, Memory.get, hv, h]
  | cons e m ih =>
    obtain ⟨b, w⟩ := e
    simp only [Memory.set]
    split
    · split <;> simp [Memory.get, h]
    · split
      · subst_vars; split <;> simp [Memory.get, h]
      · simp [Memory.get, ih]

/-- A read gives what was last written, in a memory in canonical form. -/
theorem Memory.get_set_self (m : Memory) (a : Nat) (v : Byte) (hm : m.wf) : (m.set a v).get a = v := by
  induction m with
  | nil => by_cases hv : v = 0#8 <;> simp [Memory.set, Memory.get, hv]
  | cons e m ih =>
    obtain ⟨b, w⟩ := e
    have hlt := Memory.wf_head_lt hm
    simp only [Memory.set]
    split
    · rename_i hab
      split
      · rename_i hv
        rw [hv, Memory.get_of_lt_head]
        intro c hc
        rcases List.mem_cons.1 hc with rfl | hc
        · exact hab
        · exact Nat.lt_trans hab (hlt c hc)
      · simp [Memory.get]
    · split
      · rename_i hab
        split
        · rename_i hv
          subst hab
          rw [hv, Memory.get_of_lt_head hlt]
        · simp [Memory.get]
      · rename_i hne
        simp only [Memory.get, hne, if_false]
        exact ih (Memory.wf_tail hm)

/-- One lemma for both cases. -/
theorem Memory.get_set (m : Memory) (a c : Nat) (v : Byte) (hm : m.wf) :
    (m.set a v).get c = if c = a then v else m.get c := by
  split
  · subst_vars; exact Memory.get_set_self m c v hm
  · rename_i h; exact Memory.get_set_other m v h

theorem Memory.mem_set {m : Memory} {a : Nat} {v : Byte} {c : Host.Cell} (h : c ∈ m.set a v) :
    c = (a, v) ∧ v ≠ 0#8 ∨ c ∈ m := by
  induction m with
  | nil =>
    by_cases hv : v = 0#8
    · simp [Memory.set, hv] at h
    · simp only [Memory.set, hv, if_false, List.mem_singleton] at h
      exact .inl ⟨h, hv⟩
  | cons e m ih =>
    obtain ⟨b, w⟩ := e
    simp only [Memory.set] at h
    split at h
    · split at h
      · exact .inr h
      · rename_i hv
        rcases List.mem_cons.1 h with h | h
        · exact .inl ⟨h, hv⟩
        · exact .inr h
    · split at h
      · split at h
        · exact .inr (List.mem_cons_of_mem _ h)
        · rename_i hv
          rcases List.mem_cons.1 h with h | h
          · exact .inl ⟨h, hv⟩
          · exact .inr (List.mem_cons_of_mem _ h)
      · rcases List.mem_cons.1 h with h | h
        · exact .inr (h ▸ List.mem_cons_self)
        · rcases ih h with h | h
          · exact .inl h
          · exact .inr (List.mem_cons_of_mem _ h)

/-- A write keeps the canonical form. -/
theorem Memory.set_wf (m : Memory) (a : Nat) (v : Byte) (hm : m.wf) : (m.set a v).wf := by
  constructor
  · induction m with
    | nil => by_cases hv : v = 0#8 <;> simp [Memory.set, hv]
    | cons e m ih =>
      obtain ⟨b, w⟩ := e
      have hlt := Memory.wf_head_lt hm
      have htl := ih (Memory.wf_tail hm)
      simp only [Memory.set]
      split
      · rename_i hab
        split
        · exact hm.1
        · refine List.pairwise_cons.2 ⟨?_, hm.1⟩
          intro c hc
          rcases List.mem_cons.1 hc with rfl | hc
          · exact hab
          · exact Nat.lt_trans hab (hlt c hc)
      · split
        · rename_i hab
          subst hab
          split
          · exact (Memory.wf_tail hm).1
          · exact List.pairwise_cons.2 ⟨hlt, (Memory.wf_tail hm).1⟩
        · rename_i h1 h2
          refine List.pairwise_cons.2 ⟨?_, htl⟩
          intro c hc
          rcases Memory.mem_set hc with ⟨rfl, -⟩ | hc
          · exact Nat.lt_of_le_of_ne (Nat.le_of_not_lt h1) (Ne.symm h2)
          · exact hlt c hc
  · intro c hc
    rcases Memory.mem_set hc with ⟨rfl, hv⟩ | hc
    · exact hv
    · exact hm.2 c hc

/-- A write below `n` keeps the memory below `n`. -/
theorem Memory.set_below {m : Memory} {n a : Nat} (v : Byte) (hm : m.below n) (ha : a < n) :
    (m.set a v).below n := by
  intro c hc
  rcases Memory.mem_set hc with ⟨rfl, -⟩ | hc
  · exact ha
  · exact hm c hc

theorem Memory.nil_wf : Memory.wf [] := ⟨.nil, by simp⟩

theorem loadBytes_wf (bytes : List Byte) : ∀ (a : Nat) (m : Memory), m.wf → (loadBytes a bytes m).wf := by
  induction bytes with
  | nil => exact fun _ _ h => h
  | cons b bs ih => exact fun a m h => ih _ _ (Memory.set_wf m a b h)

theorem loadBytes_below (n : Nat) (bytes : List Byte) :
    ∀ (a : Nat) (m : Memory), m.below n → a + bytes.length ≤ n → (loadBytes a bytes m).below n := by
  induction bytes with
  | nil => exact fun _ _ h _ => h
  | cons b bs ih =>
    intro a m h hn
    simp only [List.length_cons] at hn
    exact ih _ _ (Memory.set_below b h (by omega)) (by omega)

theorem placeBytes_cfg (bs : List Byte) : ∀ (a : Nat) (s : State), (placeBytes a bs s).cfg = s.cfg := by
  induction bs with
  | nil => exact fun _ _ => rfl
  | cons b bs ih =>
    intro a s
    simp only [placeBytes, ih]
    split <;> rfl

theorem placeBytes_wf (bs : List Byte) :
    ∀ (a : Nat) (s : State), s.mem.wf → (placeBytes a bs s).mem.wf := by
  induction bs with
  | nil => exact fun _ _ h => h
  | cons b bs ih =>
    intro a s h
    apply ih
    split
    · exact Memory.set_wf _ _ _ h
    · exact h

theorem State.store_byte (s : State) (a c : Nat) (v : Byte) (hm : s.mem.wf) :
    (s.store a v).byte c = if c = a then v else s.byte c := Memory.get_set s.mem a c v hm

theorem State.store_byte_other (s : State) {a c : Nat} (v : Byte) (h : c ≠ a) :
    (s.store a v).byte c = s.byte c := Memory.get_set_other s.mem v h

end Sys2Proof.Machine
end

