-- ==== Sys2Proof/Laws/PerInstr.lean ====
section
/-! SUPPORT. The per-instruction family `Length`: what an instruction adds to `pc` is the number of bytes of its
encoding, and that is the length the opcode byte alone gives. -/

namespace Sys2Proof.Laws

def Length.Statement (i : Instr) : Prop :=
  (encode i).length = i.len ∧ ∀ b ∈ (encode i).head?, opcodeLen b = some i.len

theorem Length.hlt : Length.Statement .hlt := ⟨rfl, by simp [encode]; rfl⟩
theorem Length.ldi (a imm : Byte) : Length.Statement (.ldi a imm) := ⟨rfl, by simp [encode]; rfl⟩
theorem Length.prn (a : Byte) : Length.Statement (.prn a) := ⟨rfl, by simp [encode]; rfl⟩
theorem Length.mul (a b : Byte) : Length.Statement (.mul a b) := ⟨rfl, by simp [encode]; rfl⟩
theorem Length.push (a : Byte) : Length.Statement (.push a) := ⟨rfl, by simp [encode]; rfl⟩
theorem Length.pop (a : Byte) : Length.Statement (.pop a) := ⟨rfl, by simp [encode]; rfl⟩

end Sys2Proof.Laws
end

