-- ==== Sys2Proof/Laws/Step.lean ====
section
/-! SUPPORT. The step by the status, and a run by its first step. -/

namespace Sys2Proof.Machine

variable {s t : State}

theorem step_running (h : s.status = .running) : step s = runningStep exec s := by
  simp [step, h]

theorem step_fetched {i : Instr} (h : s.status = .running) (hf : fetch s = .ok i) : step s = exec i s := by
  simp [step_running h, runningStep, hf]

theorem step_unfetched {f : FaultRecord} (h : s.status = .running) (hf : fetch s = .error f) :
    step s = .next (s.raise f) := by
  simp [step_running h, runningStep, hf]

/-- A run of no steps. -/
theorem runsTo_zero : runsTo 0 s t ↔ s = t := by
  constructor
  · intro h; injection h
  · rintro rfl; rfl

theorem coreRun_succ (M : Host.Core) (k : Nat) (u v : M.State) :
    M.run (k + 1) u = .next v ↔ ∃ w, M.step u = .next w ∧ M.run k w = .next v := by
  rw [Host.Core.run]
  cases M.step u <;> simp

/-- A run by its first step. -/
theorem runsTo_succ {k : Nat} : runsTo (k + 1) s t ↔ ∃ u, step s = .next u ∧ runsTo k u t :=
  coreRun_succ Sys2Proof.core k s t

end Sys2Proof.Machine
end

