-- ==== Sys2Proof/Tests/Slice0.lean ====
section
/-! SUPPORT. Tests on small states, with the expected values of spec/95_test_vectors.md (the vector's name stands in
the test's comment), and a witness for the hypotheses of every statement that has some. -/

namespace Sys2Proof.Tests

open Sys2Proof Sys2Proof.Machine

/-! ### Well-formedness: each check refuses an ill-formed term -/

theorem test_wf_ldi_refused : Instr.wf (.ldi 8 0) = false := by decide
theorem test_wf_prn_refused : Instr.wf (.prn 255) = false := by decide
theorem test_wf_mul_first_refused : Instr.wf (.mul 8 0) = false := by decide
theorem test_wf_mul_second_refused : Instr.wf (.mul 0 200) = false := by decide
theorem test_wf_push_refused : Instr.wf (.push 9) = false := by decide
theorem test_wf_pop_refused : Instr.wf (.pop 8) = false := by decide
theorem test_wf_accepted : ([.hlt, .ldi 7 255, .prn 7, .mul 7 7, .push 7, .pop 7] : List Instr).all Instr.wf = true := by
  decide
/-- 00_scope.md R6, D2: sizes the spec refuses are no instance, the others are. -/
theorem test_config_sizes :
    Config.ofSize 0 = none ∧ Config.ofSize 257 = none ∧ Config.ofSize 1 = some ⟨0, 0#8⟩ ∧
      Config.ofSize 16 = some ⟨15, 15#8⟩ ∧ Config.ofSize 256 = some Config.default := by decide

/-! ### Decoding: words written out from 30_encoding.md R85, R91 and vectors V-DEC -/

theorem test_decode_hlt : decode [0b00000001#8] = .ok (.hlt, []) := by decide
theorem test_decode_ldi : decode [0b10000010#8, 0b00000111#8, 0b11110000#8] = .ok (.ldi 7 240, []) := by decide
theorem test_decode_prn : decode [0b01000111#8, 0b00000100#8, 0xFF#8] = .ok (.prn 4, [0xFF#8]) := by decide
theorem test_decode_mul : decode [0b10100010#8, 0b00000010#8, 0b00000101#8] = .ok (.mul 2 5, []) := by decide
theorem test_decode_push : decode [0b01000101#8, 0b00000110#8] = .ok (.push 6, []) := by decide
theorem test_decode_pop : decode [0b01000110#8, 0b00000011#8] = .ok (.pop 3, []) := by decide
/-- V-DEC: bytes of no row. -/
theorem test_decode_unrecognised :
    ∀ b ∈ [0x00#8, 0x02#8, 0x11#8, 0x44#8, 0x48#8, 0x50#8, 0x54#8, 0x81#8, 0x83#8, 0xA0#8, 0xA1#8, 0xA3#8, 0xFF#8],
      decode [b, 0, 0] = .error (.unrecognizedOpcode b) := by decide
/-- The first missing byte is named. -/
theorem test_decode_missing :
    decode [] = .error (.missingByte 0) ∧ decode [0x82#8] = .error (.missingByte 1) ∧
      decode [0xA2#8, 9] = .error (.missingByte 2) ∧ decode [0x46#8] = .error (.missingByte 1) := by decide
/-- Table words, bit 0 the least significant of the first byte. -/
theorem test_decode_table_words :
    decodeTableWord 8 0x01 = some .hlt ∧ decodeTableWord 24 0x080082 = some (.ldi 0 8) ∧
      decodeTableWord 16 0x0447 = some (.prn 4) ∧ decodeTableWord 24 0x0100A2 = some (.mul 0 1) ∧
      decodeTableWord 8 0x45 = some (.push 0) ∧ decodeTableWord 16 0x0746 = some (.pop 7) ∧
      decodeTableWord 8 0x00 = none := by decide

/-! ### Small states -/

/-- A running core of the default instance with these bytes at `a` and `pc` there. -/
def running (a : Nat) (bytes : List Byte) : State :=
  { placeBytes a bytes State.reset with status := .running, pc := a }

/-- The same of the instance with N = 16 and `SP_INIT` = 15. -/
def running16 (a : Nat) (bytes : List Byte) : State :=
  { placeBytes a bytes (State.resetWith ⟨15, 15#8⟩) with status := .running, pc := a }

/-- The next state of a step, if there is one. -/
def after (s : State) : Option State :=
  match step s with
  | .next t => some t
  | .fault _ => none
  | .refused _ => none

/-! ### The instructions: at most two each -/

/-- V-HLT-2 -/
theorem test_hlt_at_top : (after (running 255 [0x01])).map (fun t => (t.status, t.pc, t.fault)) =
    some (.halted, 256, none) := by decide
/-- V-HLT-4 -/
theorem test_hlt_keeps_out :
    (after ({ running 0 [0x01] with out := [3, 4] }.setReg 2 9)).map (fun t => (t.out, t.reg 2, t.pc)) =
      some ([3, 4], 9#8, 1) := by decide
/-- V-LDI-2 -/
theorem test_ldi_sets_sp : (after (running 0 [0x82, 0x07, 0xF0])).map (fun t => (t.reg 7, t.pc, t.status)) =
    some (240#8, 3, .running) := by decide
/-- V-LDI-9: the bounds of the second operand come before the register check. -/
theorem test_ldi_at_top : (after (running 254 [0x82, 0x09])).map (fun t => (t.status, t.fault, t.pc)) =
    some (.faulted, some (.outOfBoundsMemory 256), 254) := by decide
/-- V-PRN-4 -/
theorem test_prn_appends :
    (after ({ running 0 [0x47, 0x04] with out := [1] }.setReg 4 255)).map (fun t => (t.out, t.pc)) =
      some ([1, 255], 2) := by decide
/-- V-PRN-5 -/
theorem test_prn_bad_register : (after (running 0 [0x47, 0x09])).map (fun t => (t.fault, t.out, t.pc)) =
    some (some (.outOfBoundsRegister 9), [], 0) := by decide
/-- V-MUL, 200 * 2 -/
theorem test_mul_wraps :
    (after (((running 0 [0xA2, 0x00, 0x01]).setReg 0 200).setReg 1 2)).map (fun t => (t.reg 0, t.reg 1, t.pc)) =
      some (144#8, 2#8, 3) := by decide
/-- V-MUL-F1: the first operand is reported. -/
theorem test_mul_reports_first : (after (running 0 [0xA2, 0x08, 0x09])).map (fun t => (t.status, t.fault)) =
    some (.faulted, some (.outOfBoundsRegister 8)) := by decide
/-- V-PUSH-5: the decremented stack pointer is stored, across the wrap. -/
theorem test_push_sp_wraps :
    (after ((running 0 [0x45, 0x07]).setReg 7 0)).map (fun t => (t.reg 7, t.byte 255, t.pc)) =
      some (255#8, 255#8, 2) := by decide
/-- V-PUSH-3 -/
theorem test_push_out_of_bounds :
    (after ((running16 0 [0x45, 0x00]).setReg 7 0)).map (fun t => (t.fault, t.reg 7, t.pc)) =
      some (some (.outOfBoundsMemory 255), 0#8, 0) := by decide
/-- V-POP-4 -/
theorem test_pop_sp_adds_one :
    (after (((running 0 [0x46, 0x07]).store 254 255).setReg 7 254)).map (fun t => (t.reg 7, t.byte 254, t.pc)) =
      some (0#8, 255#8, 2) := by decide
/-- V-POP-6 -/
theorem test_pop_out_of_bounds :
    (after ((running16 0 [0x46, 0x00]).setReg 7 16)).map (fun t => (t.fault, t.reg 0, t.reg 7)) =
      some (some (.outOfBoundsMemory 16), 0#8, 16#8) := by decide

/-- V-PRI-1 and V-PRI-2 -/
theorem test_fetch_faults :
    (after (running 256 [])).map (fun t => t.fault) = some (some (.outOfBoundsMemory 256)) ∧
      (after (running 255 [0xFF])).map (fun t => (t.fault, t.pc)) =
        some (some (.unrecognizedOpcode 255 0xFF), 255) := by decide
/-- V-HLT-5 -/
theorem test_halted_stays : after { running 0 [0x47, 0] with status := .halted } =
    some { running 0 [0x47, 0] with status := .halted } := by decide

/-- V-ADD -/
theorem test_alu_add :
    ((alu .add 0 1 (((running 0 []).setReg 0 200).setReg 1 100)).reg 0,
      (alu .add 0 0 ((running 0 []).setReg 0 128)).reg 0) = (44#8, 0#8) := by decide
/-- V-ADD, a tag other than ADD -/
theorem test_alu_other : ((alu (.other 5) 0 1 (running 0 [])).status, (alu (.other 5) 0 1 (running 0 [])).fault) =
    (.faulted, some (.unsupportedOperation 5)) := by decide

/-! ### The host -/

/-- V-RST-1 and V-RST-2 -/
theorem test_reset :
    State.reset.x = #v[0, 0, 0, 0, 0, 0, 0, 255] ∧ State.reset.pc = 0 ∧ State.reset.mem = [] ∧
    State.reset.status = .idle ∧ State.reset.fault = none ∧ State.reset.out = [] ∧
    (State.resetWith ⟨15, 15#8⟩).reg 7 = 15#8 ∧ (State.resetWith ⟨15, 15#8⟩).cfg.N = 16 := by decide
/-- V-RST-3 and V-RST-4 -/
theorem test_load_start :
    (hostLoad [0x82, 0x00, 0x08, 0x47, 0x00, 0x01] State.reset).mem = [(0, 0x82), (2, 0x08), (3, 0x47), (5, 0x01)] ∧
    (launch Config.default [0x82, 0x00, 0x08, 0x47, 0x00, 0x01]).map (fun s => (s.status, s.byte 3, s.pc)) =
      some (.running, 0x47#8, 0) := by decide
/-- V-RST-5 -/
theorem test_start_without_load : (after (hostStart State.reset)).map (fun t => (t.status, t.fault)) =
    some (.faulted, some (.unrecognizedOpcode 0 0)) := by decide
/-- V-RST-6, with N = 16 -/
theorem test_load_too_long :
    hostLoad (List.replicate 17 1) (State.resetWith ⟨15, 15#8⟩) = State.resetWith ⟨15, 15#8⟩ := by decide
/-- V-RST-8 and V-RST-9 -/
theorem test_start_refused_reset_accepted :
    hostStart ((running 0 []).raise (.outOfBoundsRegister 8)) = (running 0 []).raise (.outOfBoundsRegister 8) ∧
    hostReset ((running 0 [1]).raise (.outOfBoundsRegister 8)) = State.reset := by decide
/-- The trace at the top of memory (60_exceptions.md R180) -/
theorem test_trace_at_top : (diagnosticTrace (running 255 [0x01])).cells = [some 1, none, none] := by decide
/-- V-LOAD-1 -/
theorem test_load_text :
    parseProgram "# c\n10000010 # LDI R0,8\n00000000\n00001000\n\n01000111\n00000000\n   \n00000001 # HLT".toList =
      some [0x82, 0x00, 0x08, 0x47, 0x00, 0x01] := by decide
/-- V-LOAD-2 to V-LOAD-6 -/
theorem test_load_lines :
    parseProgram "  01000101  ".toList = some [0x45] ∧ parseProgram "101".toList = some [0x05] ∧
      parseProgram "100000000".toList = none ∧ parseProgram "LDI R0,8".toList = none ∧
      parseProgram "#00000001".toList = some [] := by decide
/-- V-PRN-7 -/
theorem test_render : renderOut [8, 0, 255] = [['8'], ['0'], ['2', '5', '5']] := by decide
/-- 30_encoding.md R91 -/
theorem test_assembly : assembly (.ldi 0 8) = "LDI R0,8".toList ∧ assembly (.prn 0) = "PRN R0".toList ∧
    assembly .hlt = "HLT".toList := by decide

/-- A table word placed where the next step fetches runs as the first instruction after reset, from every row. -/
theorem test_fetch_word_runs :
    (after (State.reset.withFetchWord 8 0x01)).map (fun t => t.status) = some .halted ∧
    (after (State.reset.withFetchWord 24 0x080082)).map (fun t => t.reg 0) = some 8#8 ∧
    (after (State.reset.withFetchWord 16 0x0747)).map (fun t => t.out) = some [255#8] ∧
    (after (State.reset.withFetchWord 24 0x0707A2)).map (fun t => t.reg 7) = some 1#8 ∧
    (after (State.reset.withFetchWord 16 0x0745)).map (fun t => t.byte 254) = some 254#8 ∧
    (after (State.reset.withFetchWord 8 0x46)).map (fun t => (t.reg 0, t.reg 7)) = some (0#8, 0#8) := by decide

/-! ### Witnesses: states and operands that meet the hypotheses of the statements, clause by clause -/

theorem witness_LengthComesFromTheOpcodeByte :
    decode [0x82#8, 1, 2, 3] = .ok (.ldi 1 2, [3]) ∧ opcodeLen 0x00#8 = none := by decide

theorem witness_OtherOpcodeBytesFault :
    (running 255 [0x00]).status = .running ∧ (running 255 [0x00]).pc < (running 255 [0x00]).cfg.N ∧
      (running 255 [0x00]).byte 255 ∉ [0x01#8, 0x45#8, 0x46#8, 0x47#8, 0x82#8, 0xA2#8] := by decide

theorem witness_PrimitivesReadWriteIndexRaise :
    State.reset.cfg.N ≤ 256 ∧ State.reset.mem.wf ∧ 255 < State.reset.cfg.N ∧ 8 ≤ (8#8 : Byte).toNat ∧
      (7#8 : Byte).toNat < 8 := by decide

theorem witness_EqualReadsAreEqualMemories :
    ∃ m m' : Memory, m ≠ [] ∧ m.wf ∧ m'.wf ∧ ∀ a, m.get a = m'.get a :=
  ⟨[(3, 5#8), (9, 1#8)], [(3, 5#8), (9, 1#8)], by decide, by decide, by decide, fun _ => rfl⟩

theorem witness_HltStopsTheLoop :
    ((running 255 [0x01]).status = .running ∧ (running 255 [0x01]).pc < (running 255 [0x01]).cfg.N ∧
      (running 255 [0x01]).byte (running 255 [0x01]).pc = 0x01#8) ∧
    ((running 256 []).status = .running ∧ (running 256 []).cfg.N ≤ (running 256 []).pc) ∧
    ({ running 0 [] with status := .halted } : State).status = .halted ∧ (HostOp.start ≠ .reset) := by decide

/-- All four windows of a three-byte instruction: both operands missing, one missing, none missing. -/
theorem witness_LdiLoadsTheImmediate :
    (7#8 : Byte).toNat < 8 ∧ 8 ≤ (8#8 : Byte).toNat ∧
    (∀ a ∈ [253, 254, 255], (running a [0x82, 7, 1]).status = .running ∧
      (running a [0x82, 7, 1]).pc < (running a [0x82, 7, 1]).cfg.N ∧
      (running a [0x82, 7, 1]).byte (running a [0x82, 7, 1]).pc = 0x82#8) := by decide

theorem witness_PrnEmitsTheRegister :
    (7#8 : Byte).toNat < 8 ∧ 8 ≤ (8#8 : Byte).toNat ∧
    (∀ a ∈ [254, 255], (running a [0x47, 7]).status = .running ∧
      (running a [0x47, 7]).pc < (running a [0x47, 7]).cfg.N ∧
      (running a [0x47, 7]).byte (running a [0x47, 7]).pc = 0x47#8) := by decide

theorem witness_MulKeepsTheLowByte :
    ((7#8 : Byte).toNat < 8 ∧ (0#8 : Byte).toNat < 8) ∧ 8 ≤ (8#8 : Byte).toNat ∧
    ((7#8 : Byte).toNat < 8 ∧ 8 ≤ (8#8 : Byte).toNat) ∧
    (∀ a ∈ [253, 254, 255], (running a [0xA2, 7, 0]).status = .running ∧
      (running a [0xA2, 7, 0]).pc < (running a [0xA2, 7, 0]).cfg.N ∧
      (running a [0xA2, 7, 0]).byte (running a [0xA2, 7, 0]).pc = 0xA2#8) := by decide

/-- The bound of the stored address at its two sides: 15 and 16 cells into the instance of N = 16. -/
theorem witness_PushStoresBelowTheStackTop :
    ((7#8 : Byte).toNat < 8 ∧ (15#8 : Byte).toNat = (((running16 0 []).setReg 7 16).x[7].toNat + 255) % 256 ∧
      (15#8 : Byte).toNat < (running16 0 []).cfg.N) ∧
    8 ≤ (8#8 : Byte).toNat ∧
    ((7#8 : Byte).toNat < 8 ∧ (16#8 : Byte).toNat = (((running16 0 []).setReg 7 17).x[7].toNat + 255) % 256 ∧
      (running16 0 []).cfg.N ≤ (16#8 : Byte).toNat) ∧
    (∀ a ∈ [254, 255], (running a [0x45, 7]).status = .running ∧
      (running a [0x45, 7]).pc < (running a [0x45, 7]).cfg.N ∧
      (running a [0x45, 7]).byte (running a [0x45, 7]).pc = 0x45#8) := by decide

theorem witness_PopLoadsTheStackTop :
    ((7#8 : Byte).toNat < 8 ∧ ((running16 0 []).setReg 7 15).x[7].toNat < (running16 0 []).cfg.N) ∧
    8 ≤ (8#8 : Byte).toNat ∧
    ((7#8 : Byte).toNat < 8 ∧ (running16 0 []).cfg.N ≤ ((running16 0 []).setReg 7 16).x[7].toNat) ∧
    (∀ a ∈ [254, 255], (running a [0x46, 7]).status = .running ∧
      (running a [0x46, 7]).pc < (running a [0x46, 7]).cfg.N ∧
      (running a [0x46, 7]).byte (running a [0x46, 7]).pc = 0x46#8) := by decide

theorem witness_RegisterWritersFrame :
    (∃ t, exec (.ldi 7 1) (running 0 []) = .next t ∧ t.status = .running) ∧
    (∃ t, exec (.mul 7 0) (running 0 []) = .next t ∧ t.status = .running) ∧
    (∃ t, exec (.mul 8 0) (running 0 []) = .next t ∧ t.status = .faulted) :=
  ⟨⟨_, rfl, rfl⟩, ⟨_, rfl, rfl⟩, ⟨_, rfl, rfl⟩⟩

theorem witness_HltAndPrnFrame :
    (∃ t, exec .hlt (running 0 []) = .next t) ∧ (∃ t, exec (.prn 7) (running 0 []) = .next t ∧ t.out = [255#8]) ∧
    (∃ t, exec (.prn 8) (running 0 []) = .next t ∧ t.status = .faulted) :=
  ⟨⟨_, rfl⟩, ⟨_, rfl, rfl⟩, ⟨_, rfl, rfl⟩⟩

theorem witness_PushFrame :
    (∃ t, exec (.push 7) (running 0 []) = .next t ∧ t.status = .running) ∧
    (∃ t, exec (.push 0) ((running16 0 []).setReg 7 0) = .next t ∧ t.status = .faulted) :=
  ⟨⟨_, rfl, rfl⟩, ⟨_, rfl, rfl⟩⟩

theorem witness_PopFrame :
    (∃ t, exec (.pop 7) (running 0 []) = .next t ∧ t.status = .running) ∧
    (∃ t, exec (.pop 0) ((running16 0 []).setReg 7 16) = .next t ∧ t.status = .faulted) :=
  ⟨⟨_, rfl, rfl⟩, ⟨_, rfl, rfl⟩⟩

theorem witness_RegistersReadAndWrittenAsListed :
    ∃ t : State, ∃ x' : Vector Byte 8, exec (.pop 3) (running 0 []) = .next t ∧ (0 : RegNum) ∉ writesRegs (.pop 3) ∧
      (∀ q ∈ readsRegs (.pop 3), x'[q.val] = (running 0 []).reg q) ∧ x' ≠ (running 0 []).x ∧
      (running 0 []).status ≠ .faulted ∧ t.status ≠ .faulted :=
  ⟨_, #v[9, 0, 0, 0, 0, 0, 0, 255], rfl, by decide, by decide, by decide, by decide, by decide⟩

theorem witness_MulIsCommutativeWraparound :
    ∃ (a b : RegNum) (s s' : State) (u v : Byte), a ≠ b ∧ u ≠ v ∧ s.reg a = u ∧ s.reg b = v ∧ s'.reg a = v ∧
      s'.reg b = u :=
  ⟨0, 7, (running 0 []).setReg 0 3, ((running 0 []).setReg 0 255).setReg 7 3, 3, 255, by decide⟩

theorem witness_AluAddWraps : ∃ (a b : RegNum) (s s' : State), a ≠ b ∧ s'.reg a = s.reg b ∧ s'.reg b = s.reg a ∧
    s.reg a ≠ s.reg b :=
  ⟨0, 7, running 0 [], ((running 0 []).setReg 0 255).setReg 7 0, by decide⟩

theorem witness_LdiThenPrnEmitsTheImmediate :
    ∃ (s : State) (a v : Byte), a.toNat < 8 ∧ s.status = .running ∧ s.pc + 4 < s.cfg.N ∧ s.byte s.pc = 0x82#8 ∧
      s.byte (s.pc + 1) = a ∧ s.byte (s.pc + 2) = v ∧ s.byte (s.pc + 3) = 0x47#8 ∧ s.byte (s.pc + 4) = a :=
  ⟨running 251 [0x82, 7, 255, 0x47, 7], 7, 255, by decide⟩

theorem witness_PushThenPopRestores :
    ∃ (a b : RegNum) (s : State), a ≠ spReg ∧ b ≠ spReg ∧ s.mem.wf ∧ pushAddr s < s.cfg.N :=
  ⟨0, 6, (running 0 []).setReg 7 0, by decide⟩

theorem witness_PushesThenPopsAreLifo :
    ∃ (rs qs : List RegNum) (s : State), rs.length = qs.length ∧ rs.length ≤ 256 ∧ rs ≠ [] ∧ spReg ∉ rs ∧
      spReg ∉ qs ∧ s.cfg.N = 256 ∧ s.mem.wf ∧ s.status ≠ .faulted :=
  ⟨[0, 1, 2], [3, 4, 5], (running 0 []).setReg 7 1, by decide⟩

theorem witness_FullMemoryHasNoStackFault :
    ∃ (i : Instr) (s t : State), s.cfg.N = 256 ∧ s.status ≠ .faulted ∧ exec i s = .next t ∧ t.status = .faulted :=
  ⟨.push 8, running 0 [], _, by decide, by decide, rfl, rfl⟩

theorem witness_StoredByteIsFetchedNext :
    ∃ (r : RegNum) (s t : State), r ≠ spReg ∧ s.mem.wf ∧ s.status = .running ∧ pushAddr s < s.cfg.N ∧
      pushAddr s = s.pc + 2 ∧ exec (.push (regByte r)) s = .next t ∧ s.reg r = 0x01#8 :=
  ⟨0, ((running 6 [0x45, 0x00, 0x47]).setReg 7 9).setReg 0 1, _, by decide, by decide, by decide, by decide,
    by decide, rfl, by decide⟩

theorem witness_StepRunsTheDecodedInstruction :
    ∃ (s : State) (i : Instr) (rest : List Byte), s.status = .running ∧ decode (fetchWindow s) = .ok (i, rest) :=
  ⟨running 254 [0x46, 7], .pop 7, [], by decide⟩

theorem witness_StepRunsTheEncodedInstruction :
    ∃ (s : State) (i : Instr), s.status = .running ∧ fetches s i :=
  ⟨running 253 [0xA2, 7, 6], .mul 7 6, by decide, by unfold fetches; decide⟩

theorem witness_FetchReadsInAddressOrder :
    ((running 256 []).status = .running ∧ (running 256 []).cfg.N ≤ (running 256 []).pc) ∧
    (opcodeLen ((running 255 [0x47]).byte 255) = some 2 ∧ (running 255 [0x47]).cfg.N ≤ 255 + 1) ∧
    (opcodeLen ((running 255 [0x82]).byte 255) = some 3 ∧ (running 255 [0x82]).cfg.N ≤ 255 + 1) ∧
    (opcodeLen ((running 254 [0x82]).byte 254) = some 3 ∧ (running 254 [0x82]).cfg.N ≤ 254 + 2 ∧
      254 + 1 < (running 254 [0x82]).cfg.N) ∧
    (opcodeLen ((running 253 [0x82]).byte 253) = some 3 ∧ 253 + 3 ≤ (running 253 [0x82]).cfg.N) ∧
    (opcodeLen ((running 255 [0x01]).byte 255) = some 1 ∧ 255 + 1 ≤ (running 255 [0x01]).cfg.N) := by decide

/-- Each check of 60_exceptions.md R168 in turn, by the vectors V-PRI, and no fault. -/
theorem witness_FaultChecksInOrder :
    [running 256 [], running 255 [0xFF], running 255 [0x45], running 254 [0x82, 9], running 0 [0xA2, 8, 9],
      running 0 [0xA2, 0, 200], (running16 0 [0x45, 9]).setReg 7 0, (running16 0 [0x45, 0]).setReg 7 0,
      (running16 0 [0x46, 0]).setReg 7 16, running 0 [0x46, 0]].map (fun s => (s.status, firstFault s)) =
    [(.running, some (.outOfBoundsMemory 256)), (.running, some (.unrecognizedOpcode 255 0xFF)),
      (.running, some (.outOfBoundsMemory 256)), (.running, some (.outOfBoundsMemory 256)),
      (.running, some (.outOfBoundsRegister 8)), (.running, some (.outOfBoundsRegister 200)),
      (.running, some (.outOfBoundsRegister 9)), (.running, some (.outOfBoundsMemory 255)),
      (.running, some (.outOfBoundsMemory 16)), (.running, none)] := by decide

theorem witness_StoppedCoreDoesNothing : State.reset.status ≠ .running ∧
    ({ running 0 [1] with status := .halted } : State).status ≠ .running ∧
    ((running 0 []).raise (.outOfBoundsRegister 8)).status ≠ .running := by decide

/-- Continue, halt and fault. -/
theorem witness_RunningStepHasOneOfThreeOutcomes :
    [running 0 [0x47, 0], running 0 [0x01], running 0 [0x00]].map (fun s => (s.status, (after s).map (fun t => t.status))) =
      [(.running, some .running), (.running, some .halted), (.running, some .faulted)] := by decide

theorem witness_FaultsArePrecise :
    ∃ s t : State, s.status = .running ∧ step s = .next t ∧ t.status = .faulted :=
  ⟨(running16 0 [0x45, 0x00]).setReg 7 0, _, by decide, rfl, by decide⟩

theorem witness_CompletedStepAdvancesByItsLength :
    (∃ s t : State, s.status = .running ∧ step s = .next t ∧ t.status = .faulted) ∧
    (∃ s t : State, s.status = .running ∧ step s = .next t ∧ t.status ≠ .faulted) :=
  ⟨⟨running 0 [0x00], _, by decide, rfl, by decide⟩, ⟨running 253 [0x82, 1, 1], _, by decide, rfl, by decide⟩⟩

theorem witness_EveryRunStops :
    ∃ s : State, s.status = .running ∧ s.pc ≤ s.cfg.N := ⟨running 256 [], by decide⟩

theorem witness_LaunchedProgramHasOneEnd :
    ∃ s, launch Config.default [0x82, 0x00, 0x08, 0x47, 0x00, 0x01] = some s := ⟨_, rfl⟩

/-- A running state with memory, away from reset, that meets the invariant, and its step. -/
theorem witness_StepKeepsTheInvariant :
    ∃ s t : State, s.Inv ∧ s.status = .running ∧ step s = .next t :=
  ⟨running 6 [0x45, 0x00], _,
    ⟨by decide, by decide, by decide, by decide, fun f hf => by simp [running, placeBytes, State.reset] at hf,
      by decide, by decide⟩, by decide, rfl⟩

theorem witness_HostKeepsTheInvariant : ∃ s : State, s.Inv ∧ s.status = .idle :=
  ⟨State.reset, ⟨by decide, by decide, by decide, by decide, fun f hf => by simp [State.reset] at hf,
    by decide, by decide⟩, rfl⟩

theorem witness_OnlyHltHalts :
    (∃ s t : State, step s = .next t ∧ t.status = .halted ∧ s.status ≠ .halted) ∧
    (∃ (op : HostOp) (s : State), (hostStep op s).status = .halted) ∧
    (∃ (op : HostOp) (s : State), s.status = .running ∧ op ≠ .reset) :=
  ⟨⟨running 0 [0x01], _, rfl, by decide, by decide⟩, ⟨.start, { running 0 [] with status := .halted }, by decide⟩,
    ⟨.load [1], running 0 [], by decide⟩⟩

theorem witness_StatusMovesOnlyAsListed :
    (∃ t, applyEvent (.host .reset) (running 0 []) = .next t ∧ t.status = .idle) ∧
    (∃ t, applyEvent (.host .start) State.reset = .next t ∧ t.status = .running) ∧
    (∃ t, applyEvent .coreStep (running 0 [0x01]) = .next t ∧ t.status = .halted) ∧
    (∃ t, applyEvent .coreStep State.reset = .next t ∧ t = State.reset) :=
  ⟨⟨_, rfl, rfl⟩, ⟨_, rfl, rfl⟩, ⟨_, rfl, by decide⟩, ⟨_, rfl, rfl⟩⟩

theorem witness_OnlyPrnEmits :
    (∃ s t : State, step s = .next t ∧ t.out ≠ s.out) ∧ HostOp.start ≠ .reset :=
  ⟨⟨running 0 [0x47, 7], _, rfl, by decide⟩, by decide⟩

theorem witness_OnlyPushAndLoadChangeMemory :
    (∃ s t : State, step s = .next t ∧ t.byte 254 ≠ s.byte 254) ∧
    (∃ (op : HostOp) (s : State), (hostStep op s).byte 1 ≠ s.byte 1 ∧ op ≠ .reset) :=
  ⟨⟨running 0 [0x45, 7], _, rfl, by decide⟩, ⟨.load [1, 2], State.reset, by decide⟩⟩

theorem witness_Reachable : ∃ s, Reachable Config.default s ∧ s.status = .faulted :=
  ⟨_, .event .coreStep (.event (.host .start) .reset rfl) rfl, rfl⟩

theorem witness_LoadWritesTheProgram :
    (∃ (bytes : List Byte) (s : State), s.Inv ∧ s.status = .idle ∧ s.loaded = false ∧ bytes.length = s.cfg.N) ∧
    (∃ (bytes : List Byte) (s : State), s.cfg.N < bytes.length) ∧
    (∃ (bytes : List Byte) (s : State), loadAccepted s bytes = true) :=
  ⟨⟨List.replicate 16 1, State.resetWith ⟨15, 15#8⟩,
      ⟨by decide, by decide, by decide, by decide, fun f hf => by simp at hf, by decide, by decide⟩, rfl, rfl, rfl⟩,
    ⟨List.replicate 17 1, State.resetWith ⟨15, 15#8⟩, by decide⟩, ⟨[1], State.reset, by decide⟩⟩

theorem witness_StartOnlyFromIdle : State.reset.status = .idle ∧ (running 0 []).status ≠ .idle := by decide

theorem witness_LaunchStateIsAsListed :
    ∃ (c : Config) (bytes more : List Byte), bytes.length ≤ c.N ∧ c.N < more.length ∧
      0 < bytes.length ∧ bytes.length ≤ 255 :=
  ⟨⟨0, 7#8⟩, [1], [1, 2], by decide⟩

theorem witness_HostOnlyReadsACoreThatStarted :
    (running 0 []).status ≠ .idle ∧ HostOp.load [1] ≠ .reset := by decide

theorem witness_HostReadsShowTheState :
    (State.reset.cfg.N ≤ 256 ∧ ¬ State.reset.cfg.N ≤ 255) ∧ State.reset.fault = none ∧
    ((running 0 []).raise (.outOfBoundsMemory 256)).fault = some (.outOfBoundsMemory 256) ∧
    ((running 0 []).raise (.outOfBoundsRegister 8)).fault = some (.outOfBoundsRegister 8) ∧
    ((running 0 []).raise (.unrecognizedOpcode 0 0)).fault = some (.unrecognizedOpcode 0 0) ∧
    (alu (.other 1) 0 0 (running 0 [])).fault = some (.unsupportedOperation 1) := by decide

theorem witness_LoaderSkipsBlankAndCommentLines :
    (∃ line, blankOrComment line ∧ line ≠ []) ∧
    (∃ first : List Char, (∀ c ∈ first, c ≠ '\n') ∧ readLine first = .byte 5#8) ∧
    (∃ (c : Config) (text : List Char) (s : State), bringUp c text = some s) :=
  ⟨⟨[' ', '#', 'x'], ⟨by simp, [' '], ['#', 'x'], rfl, by simp, .inr ⟨['x'], rfl⟩⟩, by simp⟩,
    ⟨['1', '0', '1'], by simp, by decide⟩, ⟨Config.default, ['1'], _, rfl⟩⟩

theorem witness_LoaderReadsBinaryNumerals :
    (∃ (before after tail : List Char) (ds : List Bool), (∀ c ∈ before, c.isWhitespace = true) ∧
      (∀ c ∈ after, c.isWhitespace = true) ∧ (tail = [] ∨ ∃ r, tail = '#' :: r) ∧ ds ≠ [] ∧ ds.length = 8) ∧
    (∃ line : List Char, ∃ c ∈ significant line, c ≠ '0' ∧ c ≠ '1') :=
  ⟨⟨[' '], ['\t'], ['#', '1'], List.replicate 8 true, by simp, by simp, .inr ⟨['1'], rfl⟩, by simp, by simp⟩,
    ⟨['1', '2'], '2', by decide, by decide, by decide⟩⟩

theorem witness_FailedLoadNeverStarts :
    parseProgram ['2'] = none ∧
    (∃ (c : Config) (text : List Char) (bytes : List Byte), parseProgram text = some bytes ∧ c.N < bytes.length) ∧
    readLine ['2'] = .bad :=
  ⟨by decide, ⟨⟨0, 0#8⟩, ['1', '\n', '1'], [1, 1], by decide⟩, by decide⟩

theorem witness_ConsoleLinesAreDecimal : ['2', '5', '5'] ∈ renderOut [0, 255] ∧ ['0'] ∈ renderOut [0, 255] := by decide

end Sys2Proof.Tests
end

namespace Sys2Proof.Proofs

open Sys2Proof Sys2Proof.Machine

/-- 00_scope.md R12, `MemRead`: both sides of the bound `N` in one equation. -/
theorem memRead_eq_ite (s : State) (a : Nat) : memRead s a =
    if s.cfg.N ≤ a then .error (.outOfBoundsMemory a) else .ok (s.byte a) := by
  split
  case isTrue h => exact memRead_error h
  case isFalse h => exact memRead_ok (Nat.lt_of_not_le h)

/-- Settles O7: each clause is one law of a primitive; the cell written reads back by `State.store_byte`, the one
clause that needs the memory in canonical form. -/
theorem primitivesReadWriteIndexRaise : Obligations.PrimitivesReadWriteIndexRaise := by
  refine ⟨memRead_eq_ite, fun _ _ _ => memWrite_error, ?memWrite_inside, fun _ => regIdx_error,
    fun _ => regIdx_ok, fun _ => complete_error⟩
  case memWrite_inside =>
    intro s a v hwf ha
    exact ⟨s.mem.set a v, memWrite_ok ha, fun c => State.store_byte s a c v hwf⟩

end Sys2Proof.Proofs

namespace Sys2Proof.Proofs

open Sys2Proof Sys2Proof.Machine

/-! ### What a fetch that succeeds has read -/

theorem encode_length (i : Instr) : (encode i).length = i.len := by cases i <;> rfl

theorem one_le_len (i : Instr) : 1 ≤ i.len := by cases i <;> simp [Instr.len]

/-- The bytes an instruction is decoded from are its encoding, and what follows is left over. -/
theorem eq_encode_append_of_decode {bytes rest : List Byte} {i : Instr} (h : decode bytes = .ok (i, rest)) :
    bytes = encode i ++ rest := by
  cases bytes with
  | nil => simp [decode] at h
  | cons b tail =>
    cases hrow : lookupOpcode b with
    | none => simp [decode, hrow] at h
    | some row =>
      have htake : takeOperands row.op tail = .ok (i, rest) := by simpa [decode, hrow] using h
      rcases lookupOpcode_cases hrow with
        ⟨rfl, rfl⟩ | ⟨rfl, rfl⟩ | ⟨rfl, rfl⟩ | ⟨rfl, rfl⟩ | ⟨rfl, rfl⟩ | ⟨rfl, rfl⟩
      · cases htake; rfl
      · obtain ⟨a, imm, rfl, rfl⟩ := takeTwo_ok_iff.1 htake; rfl
      · obtain ⟨a, rfl, rfl⟩ := takeOne_ok_iff.1 htake; rfl
      · obtain ⟨a, b, rfl, rfl⟩ := takeTwo_ok_iff.1 htake; rfl
      · obtain ⟨a, rfl, rfl⟩ := takeOne_ok_iff.1 htake; rfl
      · obtain ⟨a, rfl, rfl⟩ := takeOne_ok_iff.1 htake; rfl

theorem decode_fetchWindow_of_fetch {s : State} {i : Instr} (h : fetch s = .ok i) :
    ∃ rest, decode (fetchWindow s) = .ok (i, rest) := by
  unfold fetch at h
  split at h
  case h_1 j rest hdec => cases h; exact ⟨rest, hdec⟩
  case h_2 => cases h

/-- 40_execution_cycle.md R101, R103: an instruction is fetched only from its own bytes at `pc`, all of them inside
the memory. Every byte of the window is a cell below `N` (`readUpTo_get`), the last one of the encoding too. -/
theorem fetches_of_fetch {s : State} {i : Instr} (h : fetch s = .ok i) : fetches s i := by
  obtain ⟨rest, hdec⟩ := decode_fetchWindow_of_fetch h
  have hwin : readUpTo s 3 s.pc = encode i ++ rest := eq_encode_append_of_decode hdec
  have hcell : ∀ k (hk : k < (encode i).length),
      (encode i)[k] = s.byte (s.pc + k) ∧ s.pc + k < s.cfg.N := by
    intro k hk
    have hget := readUpTo_get (s := s) 3 s.pc k (by rw [hwin, List.length_append]; omega)
    simpa only [hwin, List.getElem_append_left hk] using hget
  refine ⟨?inside, fun k hk => (hcell k hk).1.symm⟩
  have hpos := one_le_len i
  have hlast := (hcell (i.len - 1) (by rw [encode_length]; omega)).2
  omega

/-! ### How a step of a running core ends -/

/-- Every instruction but HLT keeps `status` and `fault` when it completes; else it raises one fault and changes
nothing beside it. -/
theorem exec_keeps_status_or_raises {s t : State} {i : Instr} (hi : i ≠ .hlt) (h : exec i s = .next t) :
    (t.status = s.status ∧ t.fault = s.fault) ∨ ∃ f, t = s.raise f := by
  cases i with
  | hlt => exact absurd rfl hi
  | ldi a imm =>
    rcases exec_ldi_cases a imm s with ⟨_, e⟩ | ⟨_, e⟩ <;> cases e.symm.trans h
    · exact .inl ⟨rfl, rfl⟩
    · exact .inr ⟨_, rfl⟩
  | prn a =>
    rcases exec_prn_cases a s with ⟨_, e⟩ | ⟨_, e⟩ <;> cases e.symm.trans h
    · exact .inl ⟨rfl, rfl⟩
    · exact .inr ⟨_, rfl⟩
  | mul a b =>
    rcases exec_mul_cases a b s with ⟨_, _, e⟩ | ⟨_, e⟩ | ⟨_, _, e⟩ <;> cases e.symm.trans h
    · exact .inl ⟨rfl, rfl⟩
    · exact .inr ⟨_, rfl⟩
    · exact .inr ⟨_, rfl⟩
  | push a =>
    rcases exec_push_cases a s with ⟨_, _, e⟩ | ⟨_, e⟩ | ⟨_, _, e⟩ <;> cases e.symm.trans h
    · exact .inl ⟨rfl, rfl⟩
    · exact .inr ⟨_, rfl⟩
    · exact .inr ⟨_, rfl⟩
  | pop a =>
    rcases exec_pop_cases a s with ⟨_, _, e⟩ | ⟨_, e⟩ | ⟨_, _, e⟩ <;> cases e.symm.trans h
    · exact .inl ⟨rfl, rfl⟩
    · exact .inr ⟨_, rfl⟩
    · exact .inr ⟨_, rfl⟩

/-- 40_execution_cycle.md R107, as an inversion of the step: an instruction other than HLT has completed, HLT has,
or a fault was raised and nothing else was written. -/
theorem step_running_cases {s t : State} (hs : s.status = .running) (h : step s = .next t) :
    (t.status = .running ∧ t.fault = s.fault ∧ ∃ i, i ≠ .hlt ∧ fetches s i ∧ exec i s = .next t) ∨
    (t.status = .halted ∧ t.fault = s.fault ∧ fetches s .hlt ∧ exec .hlt s = .next t) ∨
    ∃ f, t = s.raise f := by
  cases hfetch : fetch s with
  | error f =>
    cases (step_unfetched hs hfetch).symm.trans h
    exact .inr (.inr ⟨f, rfl⟩)
  | ok i =>
    have hexec : exec i s = .next t := (step_fetched hs hfetch).symm.trans h
    have hfetches := fetches_of_fetch hfetch
    by_cases hi : i = .hlt
    · subst hi
      cases (exec_hlt s).symm.trans hexec
      exact .inr (.inl ⟨rfl, rfl, hfetches, hexec⟩)
    · rcases exec_keeps_status_or_raises hi hexec with ⟨hstatus, hfault⟩ | hraise
      · exact .inl ⟨hstatus.trans hs, hfault, i, hi, hfetches, hexec⟩
      · exact .inr (.inr hraise)

/-- 40_execution_cycle.md R100: no step is enabled in a core that is not running. -/
theorem step_not_running {s : State} (hs : s.status ≠ .running) : step s = .next s := by
  cases hstatus : s.status with
  | running => exact absurd hstatus hs
  | idle => simp [step, hstatus]
  | halted => simp [step, hstatus]
  | faulted => simp [step, hstatus]

/-! ### What a host operation does to the status -/

@[simp] theorem hostReset_status (s : State) : (hostReset s).status = .idle := rfl

@[simp] theorem hostLoad_status (bytes : List Byte) (s : State) : (hostLoad bytes s).status = s.status := by
  unfold hostLoad; split <;> rfl

theorem hostStart_status_idle {s : State} (hs : s.status = .idle) : (hostStart s).status = .running := by
  simp [hostStart, hs]

theorem hostStart_not_idle {s : State} (hs : s.status ≠ .idle) : hostStart s = s := if_neg hs

/-- Settles O46: the core's step by `step_running_cases` and `step_not_running`, the host's operations by what each
does to the status. -/
theorem statusMovesOnlyAsListed : Obligations.StatusMovesOnlyAsListed := by
  intro e s t h
  cases e with
  | coreStep =>
    replace h : step s = .next t := h
    by_cases hs : s.status = .running
    · refine .inr (.inr (.inl ⟨rfl, hs, ?_⟩))
      rcases step_running_cases hs h with ⟨ht, _, hcause⟩ | ⟨ht, _, hcause⟩ | ⟨f, rfl⟩
      · exact .inl ⟨ht, hcause⟩
      · exact .inr (.inl ⟨ht, hcause⟩)
      · exact .inr (.inr ⟨State.raise_status s f, f, rfl⟩)
    · cases (step_not_running hs).symm.trans h
      exact .inr (.inr (.inr ⟨rfl, fun hrun => hs hrun.2, fun _ => rfl⟩))
  | host op =>
    have ht : t = hostStep op s := by cases h; rfl
    have unchanged (hkeep : t.status = s.status) :
        t.status = s.status ∧ ¬ (Event.host op = .coreStep ∧ s.status = .running) ∧
          (Event.host op = .coreStep → t = s) :=
      ⟨hkeep, by simp, by simp⟩
    subst ht
    cases op with
    | reset => exact .inl ⟨rfl, hostReset_status s⟩
    | load bytes => exact .inr (.inr (.inr (unchanged (hostLoad_status bytes s))))
    | start =>
      by_cases hs : s.status = .idle
      · exact .inr (.inl ⟨rfl, hs, hostStart_status_idle hs⟩)
      · exact .inr (.inr (.inr (unchanged (congrArg State.status (hostStart_not_idle hs)))))
    | read q => exact .inr (.inr (.inr (unchanged rfl)))

end Sys2Proof.Proofs

namespace Sys2Proof.Proofs

open Sys2Proof Sys2Proof.Machine

/-- 20_memory.md R57 from any canonical memory: the last write to the cell answers the read, else the cell as it was.
Induction over the writes, each `Memory.set` by its read-back law `Memory.get_set`; the memory changes with every
write, so it is general. -/
theorem get_foldl_set (writes : List (Nat × Byte)) (a : Nat) (m : Memory) (hm : m.wf) :
    (writes.foldl (fun m w => Memory.set m w.1 w.2) m).get a =
      ((writes.reverse.find? fun w => w.1 == a).map Prod.snd).getD (m.get a) := by
  induction writes generalizing m with
  | nil => rfl
  | cons w ws ih =>
    rw [List.foldl_cons, ih _ (Memory.set_wf m w.1 w.2 hm), Memory.get_set m w.1 a w.2 hm,
      List.reverse_cons, List.find?_append]
    cases ws.reverse.find? fun w => w.1 == a with
    | some later => rfl
    | none =>
      by_cases hw : w.1 = a
      · simp [hw]
      · simp [hw, Ne.symm hw]

/-- Settles O8: the memory of reset is canonical and every cell of it reads as 0. -/
theorem cellsArePlainStorage : Obligations.CellsArePlainStorage :=
  fun writes a => get_foldl_set writes a [] Memory.nil_wf

end Sys2Proof.Proofs

namespace Sys2Proof.Proofs

open Sys2Proof Sys2Proof.Machine

/-! ### The opcode byte alone selects the row, and with it the length -/

theorem lookupOpcode_eq_none_iff (b : Byte) : lookupOpcode b = none ↔ b ∉ opcodeTable.map OpRow.opcode := by
  simp only [lookupOpcode, List.find?_eq_none, List.mem_map, not_exists, not_and, beq_iff_eq]

theorem decode_of_lookupOpcode_none {b : Byte} (hb : lookupOpcode b = none) (tail : List Byte) :
    decode (b :: tail) = .error (.unrecognizedOpcode b) := by
  simp only [decode, hb]

/-- The family `Laws.Length`, for every instruction. -/
theorem length_statement (i : Instr) : Laws.Length.Statement i := by
  cases i with
  | hlt => exact Laws.Length.hlt
  | ldi a imm => exact Laws.Length.ldi a imm
  | prn a => exact Laws.Length.prn a
  | mul a b => exact Laws.Length.mul a b
  | push a => exact Laws.Length.push a
  | pop a => exact Laws.Length.pop a

theorem encode_ne_nil (i : Instr) : encode i ≠ [] :=
  List.ne_nil_of_length_pos (by rw [encode_length]; exact one_le_len i)

/-- The first of the bytes is the head of the encoding, of which `length_statement` speaks. -/
theorem opcodeLen_of_cons_eq_encode_append {b : Byte} {tail rest : List Byte} {i : Instr}
    (h : b :: tail = encode i ++ rest) : opcodeLen b = some i.len := by
  obtain ⟨_, hhead⟩ := length_statement i
  have hb : (encode i).head? = some b := by
    rw [← List.head?_append_of_ne_nil _ (encode_ne_nil i), ← h, List.head?_cons]
  exact hhead b hb

/-- Settles O5: what decodes as an instruction is its encoding and the rest (`eq_encode_append_of_decode`), and the
first byte of an encoding gives its length; a byte without a length is in no row. -/
theorem lengthComesFromTheOpcodeByte : Obligations.LengthComesFromTheOpcodeByte := by
  refine ⟨fun b tail i rest h => ?consumed, fun b hb => decode_of_lookupOpcode_none (Option.map_eq_none_iff.1 hb)⟩
  case consumed =>
    have hbytes : b :: tail = encode i ++ rest := eq_encode_append_of_decode h
    exact ⟨opcodeLen_of_cons_eq_encode_append hbytes, by rw [hbytes, List.length_append, encode_length]⟩

/-- Settles O1: each row by running the decoder on its opcode byte with open operands, the bytes in no row by
`lookupOpcode_eq_none_iff`. -/
theorem opcodeMapIsTheSixRows : Obligations.OpcodeMapIsTheSixRows := by
  refine ⟨fun _ => rfl, fun _ _ _ => rfl, fun _ _ => rfl, fun _ _ _ => rfl, fun _ _ => rfl, fun _ _ => rfl,
    ?table, lookupOpcode_eq_none_iff⟩
  case table => rfl

/-- Settles O2: six recognised words by their rows in O1, the zero byte by its absence from the table. -/
theorem wordsOfTheSpecDecode : Obligations.WordsOfTheSpecDecode := by
  obtain ⟨hhlt, hldi, hprn, hmul, hpush, hpop, _, hnone⟩ := opcodeMapIsTheSixRows
  exact ⟨hldi 0 8 [], hprn 0 [], hhlt [], hmul 0 1 [], hpush 1 [], hpop 1 [],
    decode_of_lookupOpcode_none ((hnone 0#8).2 (by decide)) []⟩

/-! ### A byte in no row faults when it is fetched -/

theorem fetch_of_lookupOpcode_none {s : State} (hpc : s.pc < s.cfg.N) (hb : lookupOpcode (s.byte s.pc) = none) :
    fetch s = .error (.unrecognizedOpcode s.pc (s.byte s.pc)) := by
  simp only [fetch, fetchWindow_head hpc, decode_of_lookupOpcode_none hb, fetchFault]

/-- The opcodes in ascending order, as the statement of R88 lists them, are those of the table. -/
theorem ascending_opcodes_perm_table :
    [0x01#8, 0x45#8, 0x46#8, 0x47#8, 0x82#8, 0xA2#8].Perm (opcodeTable.map OpRow.opcode) := by decide

/-- Settles O6: a byte that is none of the six opcodes is in no row, so the fetch fails with it and the step raises
that fault. -/
theorem otherOpcodeBytesFault : Obligations.OtherOpcodeBytesFault := by
  intro s hs hpc hother
  have hnone : lookupOpcode (s.byte s.pc) = none :=
    (lookupOpcode_eq_none_iff _).2 fun hmem => hother (ascending_opcodes_perm_table.mem_iff.2 hmem)
  exact step_unfetched hs (fetch_of_lookupOpcode_none hpc hnone)

end Sys2Proof.Proofs

namespace Sys2Proof.Proofs

open Sys2Proof Sys2Proof.Machine

/-! ### Decoding by the length of the opcode and the number of bytes there -/

theorem takeOne_by_length (mk : Byte → Instr) (tail : List Byte) :
    (tail.length + 1 < 2 ∧ takeOne mk tail = .error (.missingByte (tail.length + 1))) ∨
    (2 ≤ tail.length + 1 ∧ ∃ i rest, takeOne mk tail = .ok (i, rest)) := by
  cases tail with
  | nil => exact .inl ⟨by simp, rfl⟩
  | cons a rest => exact .inr ⟨by simp, mk a, rest, rfl⟩

theorem takeTwo_by_length (mk : Byte → Byte → Instr) (tail : List Byte) :
    (tail.length + 1 < 3 ∧ takeTwo mk tail = .error (.missingByte (tail.length + 1))) ∨
    (3 ≤ tail.length + 1 ∧ ∃ i rest, takeTwo mk tail = .ok (i, rest)) := by
  match tail with
  | [] => exact .inl ⟨by simp, rfl⟩
  | [_] => exact .inl ⟨by simp, rfl⟩
  | a :: b :: rest => exact .inr ⟨by simp, mk a b, rest, rfl⟩

/-- 40_execution_cycle.md R103: after an opcode of length `n` the operands are there when there are `n` bytes in all,
else the first byte that is not there is named. -/
theorem decode_by_length {b : Byte} {n : Nat} (hb : opcodeLen b = some n) (tail : List Byte) :
    (tail.length + 1 < n ∧ decode (b :: tail) = .error (.missingByte (tail.length + 1))) ∨
    (n ≤ tail.length + 1 ∧ ∃ i rest, decode (b :: tail) = .ok (i, rest)) := by
  obtain ⟨row, hrow, rfl⟩ := Option.map_eq_some_iff.1 hb
  have hdec : decode (b :: tail) = takeOperands row.op tail := by simp only [decode, hrow]
  rw [hdec]
  rcases lookupOpcode_cases hrow with
    ⟨_, rfl⟩ | ⟨_, rfl⟩ | ⟨_, rfl⟩ | ⟨_, rfl⟩ | ⟨_, rfl⟩ | ⟨_, rfl⟩
  · exact .inr ⟨Nat.le_add_left 1 _, .hlt, tail, rfl⟩
  · exact takeTwo_by_length .ldi tail
  · exact takeOne_by_length .prn tail
  · exact takeTwo_by_length .mul tail
  · exact takeOne_by_length .push tail
  · exact takeOne_by_length .pop tail

theorem opcodeLen_bounds {b : Byte} {n : Nat} (hb : opcodeLen b = some n) : 1 ≤ n ∧ n ≤ 3 := by
  obtain ⟨row, _, rfl⟩ := Option.map_eq_some_iff.1 hb
  cases row.format <;> decide

/-! ### The fetch at the end of memory -/

theorem fetch_of_decode_error {s : State} {e : DecodeError} (h : decode (fetchWindow s) = .error e) :
    fetch s = .error (fetchFault s.pc e) := by
  simp only [fetch, h]

theorem fetch_of_decode_ok {s : State} {i : Instr} {rest : List Byte} (h : decode (fetchWindow s) = .ok (i, rest)) :
    fetch s = .ok i := by
  simp only [fetch, h]

/-- 40_execution_cycle.md R101: no opcode byte is fetched from outside the memory. -/
theorem fetch_of_pc_outside {s : State} (hpc : s.cfg.N ≤ s.pc) :
    fetch s = .error (.outOfBoundsMemory s.pc) := by
  have hwin : fetchWindow s = [] := readUpTo_end hpc
  exact fetch_of_decode_error (e := .missingByte 0) (by rw [hwin]; rfl)

/-- 40_execution_cycle.md R103: an instruction that starts inside the memory and does not end there faults at `N`,
the first address out of range. -/
theorem fetch_across_the_end {s : State} {n : Nat} (hpc : s.pc < s.cfg.N)
    (hlen : opcodeLen (s.byte s.pc) = some n) (hend : s.cfg.N < s.pc + n) :
    fetch s = .error (.outOfBoundsMemory s.cfg.N) := by
  have missing {tail : List Byte} (hwin : fetchWindow s = s.byte s.pc :: tail)
      (hN : s.pc + (tail.length + 1) = s.cfg.N) : fetch s = .error (.outOfBoundsMemory s.cfg.N) := by
    rcases decode_by_length hlen tail with ⟨_, hdec⟩ | ⟨hle, _⟩
    · rw [fetch_of_decode_error (hwin ▸ hdec), fetchFault, hN]
    · omega
  rcases fetchWindow_cases hpc with ⟨hN, hwin⟩ | ⟨hN, hwin⟩ | ⟨hN, _⟩
  · exact missing hwin hN
  · exact missing hwin hN
  · have := opcodeLen_bounds hlen
    omega

/-- 40_execution_cycle.md R101, R103: an instruction of a known opcode that ends inside the memory is fetched, with
the bytes that stand there. -/
theorem fetch_inside {s : State} {n : Nat} (hlen : opcodeLen (s.byte s.pc) = some n)
    (hend : s.pc + n ≤ s.cfg.N) : ∃ i, fetch s = .ok i ∧ i.len = n ∧ fetches s i := by
  obtain ⟨hone, hthree⟩ := opcodeLen_bounds hlen
  have hwin := fetchWindow_head (s := s) (by omega)
  have hcount := readUpTo_length (s := s) 2 (s.pc + 1) (n - 1) (by omega) (by omega)
  rcases decode_by_length hlen (readUpTo s 2 (s.pc + 1)) with ⟨hlt, _⟩ | ⟨_, i, rest, hdec⟩
  · omega
  · have hfetch : fetch s = .ok i := fetch_of_decode_ok (hwin ▸ hdec)
    have hi := opcodeLen_of_cons_eq_encode_append (eq_encode_append_of_decode hdec)
    exact ⟨i, hfetch, Option.some.inj (hi.symm.trans hlen), fetches_of_fetch hfetch⟩

/-- Settles O34: the address each fault names is `pc`, or `N` for an instruction across the end of the memory, which
is then `pc + 1` or `pc + 2`. -/
theorem fetchReadsInAddressOrder : Obligations.FetchReadsInAddressOrder := by
  refine ⟨fun s hs hpc => step_unfetched hs (fetch_of_pc_outside hpc), ?operandA, ?operandB,
    fun s n => fetch_inside⟩
  case operandA =>
    intro s n hs hpc hlen hn hend
    have hN : s.cfg.N = s.pc + 1 := by omega
    exact step_unfetched hs (hN ▸ fetch_across_the_end hpc hlen (by omega))
  case operandB =>
    intro s hs hpc hlen hend
    have hN : s.cfg.N = s.pc + 2 := by omega
    exact step_unfetched hs (hN ▸ fetch_across_the_end (by omega) hlen (by omega))

/-! ### Every step answers, and a completed one advances `pc` by the length -/

/-- 40_execution_cycle.md R107: a step always answers a next state. -/
theorem step_next (s : State) : ∃ t, step s = .next t := by
  by_cases hs : s.status = .running
  · cases hfetch : fetch s with
    | error f => exact ⟨_, step_unfetched hs hfetch⟩
    | ok i =>
      rw [step_fetched hs hfetch]
      exact exec_next s i
  · exact ⟨s, step_not_running hs⟩

/-- Settles O37: the step answers (`step_next`), and its three outcomes are those of `step_running_cases`. -/
theorem runningStepHasOneOfThreeOutcomes : Obligations.RunningStepHasOneOfThreeOutcomes := by
  intro s hs
  obtain ⟨t, ht⟩ := step_next s
  refine ⟨t, ht, ?_⟩
  rcases step_running_cases hs ht with hrunning | hhalted | ⟨f, rfl⟩
  · exact .inl hrunning
  · exact .inr (.inl hhalted)
  · exact .inr (.inr ⟨State.raise_status s f, f, rfl⟩)

@[simp] theorem regByteOk_eq_true_iff (b : Byte) : regByteOk b = true ↔ b.toNat < 8 := decide_eq_true_iff

/-- 40_execution_cycle.md R105: an instruction that completes is legal and advances `pc` by its length; else it raises
one fault and changes nothing beside it. -/
theorem exec_advances_or_raises {s t : State} {i : Instr} (h : exec i s = .next t) :
    (i.wf = true ∧ t.pc = s.pc + i.len) ∨ ∃ f, t = s.raise f := by
  cases i with
  | hlt =>
    cases (exec_hlt s).symm.trans h
    exact .inl ⟨rfl, rfl⟩
  | ldi a imm =>
    rcases exec_ldi_cases a imm s with ⟨ha, e⟩ | ⟨_, e⟩ <;> cases e.symm.trans h
    · exact .inl ⟨by simp [Instr.wf, ha], rfl⟩
    · exact .inr ⟨_, rfl⟩
  | prn a =>
    rcases exec_prn_cases a s with ⟨ha, e⟩ | ⟨_, e⟩ <;> cases e.symm.trans h
    · exact .inl ⟨by simp [Instr.wf, ha], rfl⟩
    · exact .inr ⟨_, rfl⟩
  | mul a b =>
    rcases exec_mul_cases a b s with ⟨ha, hb, e⟩ | ⟨_, e⟩ | ⟨_, _, e⟩ <;> cases e.symm.trans h
    · exact .inl ⟨by simp [Instr.wf, ha, hb], rfl⟩
    · exact .inr ⟨_, rfl⟩
    · exact .inr ⟨_, rfl⟩
  | push a =>
    rcases exec_push_cases a s with ⟨ha, _, e⟩ | ⟨_, e⟩ | ⟨_, _, e⟩ <;> cases e.symm.trans h
    · exact .inl ⟨by simp [Instr.wf, ha], rfl⟩
    · exact .inr ⟨_, rfl⟩
    · exact .inr ⟨_, rfl⟩
  | pop a =>
    rcases exec_pop_cases a s with ⟨ha, _, e⟩ | ⟨_, e⟩ | ⟨_, _, e⟩ <;> cases e.symm.trans h
    · exact .inl ⟨by simp [Instr.wf, ha], rfl⟩
    · exact .inr ⟨_, rfl⟩
    · exact .inr ⟨_, rfl⟩

theorem wf_and_pc_of_exec_not_faulted {s t : State} {i : Instr} (h : exec i s = .next t)
    (ht : t.status ≠ .faulted) : i.wf = true ∧ t.pc = s.pc + i.len := by
  rcases exec_advances_or_raises h with hadvance | ⟨f, rfl⟩
  · exact hadvance
  · exact absurd (State.raise_status s f) ht

/-- Settles O39: of the outcomes of `step_running_cases`, a fault leaves `pc` where it was, and in the other two the
fetched instruction has completed. -/
theorem completedStepAdvancesByItsLength : Obligations.CompletedStepAdvancesByItsLength := by
  refine ⟨?advance, rfl, fun _ => rfl, fun _ => rfl, fun _ => rfl, fun _ _ => rfl, fun _ _ => rfl⟩
  case advance =>
    intro s t hs h
    have completed {i : Instr} (hfetches : fetches s i) (hexec : exec i s = .next t) (ht : t.status ≠ .faulted) :
        t.status ≠ .faulted ∧ ∃ i, fetches s i ∧ i.wf = true ∧ t.pc = s.pc + i.len :=
      ⟨ht, i, hfetches, wf_and_pc_of_exec_not_faulted hexec ht⟩
    rcases step_running_cases hs h with ⟨ht, _, i, _, hfetches, hexec⟩ | ⟨ht, _, hfetches, hexec⟩ | ⟨f, rfl⟩
    · exact .inr (completed hfetches hexec (by simp [ht]))
    · exact .inr (completed hfetches hexec (by simp [ht]))
    · exact .inl ⟨State.raise_status s f, State.raise_pc s f⟩

end Sys2Proof.Proofs

namespace Sys2Proof.Proofs

open Sys2Proof Sys2Proof.Machine

/-- 10_state.md R32 for the host alone: reset leaves the core idle, `start` sets an idle core running, and any other
operation keeps the status. -/
theorem hostStep_status_cases (op : HostOp) (s : State) :
    (op = .reset ∧ (hostStep op s).status = .idle) ∨
    (s.status = .idle ∧ (hostStep op s).status = .running) ∨
    (hostStep op s).status = s.status := by
  rcases statusMovesOnlyAsListed (.host op) s (hostStep op s) rfl with
    ⟨hop, hidle⟩ | ⟨_, hs, hrunning⟩ | ⟨hop, _⟩ | ⟨hkeep, _⟩
  · exact .inl ⟨Event.host.inj hop, hidle⟩
  · exact .inr (.inl ⟨hs, hrunning⟩)
  · cases hop
  · exact .inr (.inr hkeep)

/-- Settles O45: of the outcomes of a step (`step_running_cases`, `step_not_running`) only HLT's enters `Halted`, and
the host moves the status only by reset or out of `Idle` (`hostStep_status_cases`). -/
theorem onlyHltHalts : Obligations.OnlyHltHalts := by
  refine ⟨?step, ?hostNeverHalts, ?hostNeverStops⟩
  case step =>
    intro s t h ht hns
    by_cases hs : s.status = .running
    · rcases step_running_cases hs h with ⟨hrunning, _⟩ | ⟨_, _, hfetches, _⟩ | ⟨f, rfl⟩
      · simp [hrunning] at ht
      · exact ⟨hs, hfetches⟩
      · simp at ht
    · cases (step_not_running hs).symm.trans h
      exact absurd ht hns
  case hostNeverHalts =>
    intro op s ht
    rcases hostStep_status_cases op s with ⟨_, hidle⟩ | ⟨_, hrunning⟩ | hkeep
    · simp [hidle] at ht
    · simp [hrunning] at ht
    · exact hkeep.symm.trans ht
  case hostNeverStops =>
    intro op s hs hop
    rcases hostStep_status_cases op s with ⟨hreset, _⟩ | ⟨_, hrunning⟩ | hkeep
    · exact absurd hreset hop
    · exact hrunning
    · exact hkeep.trans hs

end Sys2Proof.Proofs

namespace Sys2Proof.Proofs

open Sys2Proof Sys2Proof.Machine

/-- 40_execution_cycle.md R101, R103, for an opcode with two operand bytes: a step faults at the first of them that is
outside the memory, and with both inside it executes the instruction `mk` makes of them. -/
theorem step_of_two_operands {s : State} {mk : Byte → Byte → Instr} (hs : s.status = .running) (hpc : s.pc < s.cfg.N)
    (hlen : opcodeLen (s.byte s.pc) = some 3)
    (hdec : ∀ (a b : Byte) (rest : List Byte), decode (s.byte s.pc :: a :: b :: rest) = .ok (mk a b, rest)) :
    step s =
      if s.cfg.N ≤ s.pc + 1 then .next (s.raise (.outOfBoundsMemory (s.pc + 1)))
      else if s.cfg.N ≤ s.pc + 2 then .next (s.raise (.outOfBoundsMemory (s.pc + 2)))
      else exec (mk (s.byte (s.pc + 1)) (s.byte (s.pc + 2))) s := by
  have hcut (hend : s.cfg.N < s.pc + 3) : step s = .next (s.raise (.outOfBoundsMemory s.cfg.N)) :=
    step_unfetched hs (fetch_across_the_end hpc hlen hend)
  rcases fetchWindow_cases hpc with ⟨hN, _⟩ | ⟨hN, _⟩ | ⟨hN, hwin⟩
  · rw [if_pos hN.ge, hN]
    exact hcut (by omega)
  · rw [if_neg (by omega), if_pos hN.ge, hN]
    exact hcut (by omega)
  · rw [if_neg (by omega), if_neg (by omega)]
    exact step_fetched hs (fetch_of_decode_ok (hwin ▸ hdec _ _ []))

theorem exec_ldi_of_lt {a imm : Byte} {s : State} (h : a.toNat < 8) :
    exec (.ldi a imm) s = .next ((s.setReg ⟨a.toNat, h⟩ imm).advance 3) := by
  rcases exec_ldi_cases a imm s with ⟨_, hexec⟩ | ⟨hge, _⟩
  · exact hexec
  · omega

theorem exec_ldi_of_ge {a imm : Byte} {s : State} (h : 8 ≤ a.toNat) :
    exec (.ldi a imm) s = .next (s.raise (.outOfBoundsRegister a)) := by
  rcases exec_ldi_cases a imm s with ⟨hlt, _⟩ | ⟨_, hexec⟩
  · omega
  · exact hexec

/-- Settles O11: `exec` by the two ways LDI can end, the step by `step_of_two_operands` for the row of LDI. -/
theorem ldiLoadsTheImmediate : Obligations.LdiLoadsTheImmediate := by
  refine ⟨fun _ _ _ => exec_ldi_of_lt, fun _ _ _ => exec_ldi_of_ge, fun s hs hpc hop => ?step⟩
  case step =>
    obtain ⟨_, hldi, _⟩ := opcodeMapIsTheSixRows
    exact step_of_two_operands hs hpc (by rw [hop]; rfl) (hop ▸ hldi)

end Sys2Proof.Proofs

namespace Sys2Proof.Proofs

open Sys2Proof Sys2Proof.Machine

/-! ### The product byte -/

theorem mulByte_toNat (u v : Byte) : (mulByte u v).toNat = u.toNat * v.toNat % 256 := BitVec.toNat_ofNat _ 8

theorem mulByte_comm (u v : Byte) : mulByte u v = mulByte v u := congrArg trunc8 (Nat.mul_comm _ _)

/-- Truncation to a byte is reduction modulo 256, so reducing the product first makes no difference. -/
theorem mulByte_eq_ofNat_mod (u v : Byte) : mulByte u v = BitVec.ofNat 8 (u.toNat * v.toNat % 256) :=
  BitVec.eq_of_toNat_eq (by rw [mulByte_toNat, BitVec.toNat_ofNat, Nat.mod_mod])

/-! ### MUL by its register bytes -/

theorem exec_mul_of_lt {a b : Byte} {s : State} (ha : a.toNat < 8) (hb : b.toNat < 8) :
    exec (.mul a b) s =
      .next ((s.setReg ⟨a.toNat, ha⟩ (mulByte (s.reg ⟨a.toNat, ha⟩) (s.reg ⟨b.toNat, hb⟩))).advance 3) := by
  rcases exec_mul_cases a b s with ⟨_, _, hexec⟩ | ⟨hge, _⟩ | ⟨_, hge, _⟩
  · exact hexec
  · omega
  · omega

theorem exec_mul_of_first_ge {a b : Byte} {s : State} (ha : 8 ≤ a.toNat) :
    exec (.mul a b) s = .next (s.raise (.outOfBoundsRegister a)) := by
  rcases exec_mul_cases a b s with ⟨hlt, _⟩ | ⟨_, hexec⟩ | ⟨hlt, _⟩
  · omega
  · exact hexec
  · omega

theorem exec_mul_of_second_ge {a b : Byte} {s : State} (ha : a.toNat < 8) (hb : 8 ≤ b.toNat) :
    exec (.mul a b) s = .next (s.raise (.outOfBoundsRegister b)) := by
  rcases exec_mul_cases a b s with ⟨_, hlt, _⟩ | ⟨hge, _⟩ | ⟨_, _, hexec⟩
  · omega
  · omega
  · exact hexec

theorem regByte_toNat (r : RegNum) : (regByte r).toNat = r.val := by
  rw [regByte, trunc8, BitVec.toNat_ofNat, Nat.mod_eq_of_lt (by omega)]

/-- 43_arithmetic.md R140, of two registers by number: no fault is possible. -/
theorem exec_mul_regByte (a b : RegNum) (s : State) :
    exec (.mul (regByte a) (regByte b)) s = .next ((s.setReg a (mulByte (s.reg a) (s.reg b))).advance 3) := by
  rw [exec_mul_of_lt (by rw [regByte_toNat]; exact a.isLt) (by rw [regByte_toNat]; exact b.isLt)]
  simp only [regByte_toNat]

/-- Settles O22: both runs complete by `exec_mul_regByte`; with the operand values exchanged the product is the same
by `mulByte_comm`. -/
theorem mulIsCommutativeWraparound : Obligations.MulIsCommutativeWraparound := by
  rintro a b s s' u v rfl rfl ha' hb'
  refine ⟨_, _, exec_mul_regByte a b s, exec_mul_regByte a b s', ?product, ?commutes, ?frame⟩
  case product => simp [mulByte_toNat]
  case commutes => simp [ha', hb', mulByte_comm (s.reg b)]
  case frame =>
    intro q hq
    simp [hq.symm]

/-- Settles O13: `exec` by the three ways MUL can end, the step by `step_of_two_operands` for the row of MUL. -/
theorem mulKeepsTheLowByte : Obligations.MulKeepsTheLowByte := by
  refine ⟨fun a b s ha hb => ?completes, fun _ _ _ => exec_mul_of_first_ge, fun _ _ _ => exec_mul_of_second_ge,
    fun s hs hpc hop => ?step⟩
  case completes =>
    rw [exec_mul_of_lt ha hb, mulByte_eq_ofNat_mod]
    rfl
  case step =>
    obtain ⟨_, _, _, hmul, _⟩ := opcodeMapIsTheSixRows
    exact step_of_two_operands hs hpc (by rw [hop]; rfl) (hop ▸ hmul)

end Sys2Proof.Proofs

namespace Sys2Proof.Proofs

open Sys2Proof Sys2Proof.Machine

/-! ### Encoding and decoding -/

/-- The converse of `eq_encode_append_of_decode`. -/
theorem decode_encode_append (i : Instr) (rest : List Byte) : decode (encode i ++ rest) = .ok (i, rest) := by
  cases i <;> rfl

/-- Settles O3: one direction is `eq_encode_append_of_decode`, the other `decode_encode_append`. -/
theorem decodesExactlyTheEncoding : Obligations.DecodesExactlyTheEncoding := by
  intro bytes i rest
  constructor
  · exact eq_encode_append_of_decode
  · rintro rfl
    exact decode_encode_append i rest

theorem encode_injective {i j : Instr} (h : encode i = encode j) : i = j := by
  have hdec := decode_encode_append i []
  rw [h, decode_encode_append j []] at hdec
  cases hdec
  rfl

theorem decode_cons_error_iff_of_opcodeLen_some {b : Byte} {n : Nat} (hb : opcodeLen b = some n) (tail : List Byte)
    (e : DecodeError) :
    decode (b :: tail) = .error e ↔ tail.length + 1 < n ∧ e = .missingByte (tail.length + 1) := by
  rcases decode_by_length hb tail with ⟨hlt, hdec⟩ | ⟨hle, i, rest, hdec⟩
  · simp [hdec, hlt, eq_comm]
  · simp [hdec, Nat.not_lt.2 hle]

theorem decode_cons_error_iff_of_opcodeLen_none {b : Byte} (hb : opcodeLen b = none) (tail : List Byte)
    (e : DecodeError) : decode (b :: tail) = .error e ↔ e = .unrecognizedOpcode b := by
  simp [decode_of_lookupOpcode_none (Option.map_eq_none_iff.1 hb), eq_comm]

/-- Settles O4: without a byte there is nothing to decode; else the opcode byte has no length, or one that the number
of bytes is compared with. -/
theorem decoderRejectsExactly : Obligations.DecoderRejectsExactly := by
  intro bytes e
  cases bytes with
  | nil => simp [decode, eq_comm]
  | cons b tail =>
    cases hb : opcodeLen b with
    | none => simp [decode_cons_error_iff_of_opcodeLen_none hb, hb]
    | some n => simp [decode_cons_error_iff_of_opcodeLen_some hb, hb]

/-! ### The step runs the instruction at `pc` -/

/-- Settles O32: the decoder's answer is the fetched instruction. -/
theorem stepRunsTheDecodedInstruction : Obligations.StepRunsTheDecodedInstruction :=
  fun _ _ _ hs hdec => step_fetched hs (fetch_of_decode_ok hdec)

/-- The opcode byte of an instruction that stands at `pc` gives its length. -/
theorem opcodeLen_of_fetches {s : State} {i : Instr} (h : fetches s i) : opcodeLen (s.byte s.pc) = some i.len := by
  have hpos : 0 < (encode i).length := List.length_pos_iff.2 (encode_ne_nil i)
  have hhead : (encode i).head? = some (s.byte s.pc) := by
    rw [List.head?_eq_getElem?, List.getElem?_eq_getElem hpos, ← h.2 0 hpos, Nat.add_zero]
  exact (length_statement i).2 _ hhead

/-- Only one instruction stands at `pc`: the opcode byte fixes the length, and the bytes fix the encoding. -/
theorem eq_of_fetches {s : State} {i j : Instr} (hi : fetches s i) (hj : fetches s j) : i = j := by
  have hlen : i.len = j.len := Option.some.inj ((opcodeLen_of_fetches hi).symm.trans (opcodeLen_of_fetches hj))
  refine encode_injective (List.ext_getElem (by rw [encode_length, encode_length, hlen]) fun k hki hkj => ?_)
  rw [← hi.2 k hki, hj.2 k hkj]

/-- The converse of `fetches_of_fetch`. -/
theorem fetch_of_fetches {s : State} {i : Instr} (h : fetches s i) : fetch s = .ok i := by
  obtain ⟨j, hfetch, _, hj⟩ := fetch_inside (opcodeLen_of_fetches h) h.1
  rw [hfetch, eq_of_fetches hj h]

theorem step_of_fetches {s : State} {i : Instr} (hs : s.status = .running) (h : fetches s i) : step s = exec i s :=
  step_fetched hs (fetch_of_fetches h)

/-- Settles O33: the instruction at `pc` is the one fetched (`fetch_of_fetches`). -/
theorem stepRunsTheEncodedInstruction : Obligations.StepRunsTheEncodedInstruction :=
  fun _ _ => step_of_fetches

/-- Settles O36, which is `step_not_running`. -/
theorem stoppedCoreDoesNothing : Obligations.StoppedCoreDoesNothing := fun _ => step_not_running

end Sys2Proof.Proofs

namespace Sys2Proof.Proofs

open Sys2Proof Sys2Proof.Machine

/-! ### Register bytes, legal and not -/

theorem exists_regByte {b : Byte} (h : b.toNat < 8) : ∃ r, b = regByte r :=
  ⟨⟨b.toNat, h⟩, BitVec.eq_of_toNat_eq (regByte_toNat ⟨b.toNat, h⟩).symm⟩

theorem regByte_toNat_lt (r : RegNum) : (regByte r).toNat < 8 := by
  rw [regByte_toNat]
  exact r.isLt

theorem mem_regsNamed {q : RegNum} {b : Byte} : q ∈ regsNamed b ↔ q.val = b.toNat := by
  unfold regsNamed
  split
  case isTrue h => simp [Fin.ext_iff]
  case isFalse h => simp; omega

@[simp] theorem regsNamed_regByte (r : RegNum) : regsNamed (regByte r) = [r] := by
  simp [regsNamed, regByte_toNat]

/-- 60_exceptions.md R168, checks 5 and 6, of one register byte. -/
def registerFault (b : Byte) : Option FaultRecord :=
  if 8 ≤ b.toNat then some (.outOfBoundsRegister b) else none

/-- 60_exceptions.md R168, check 7, of one address. -/
def memoryFault (s : State) (a : Nat) : Option FaultRecord :=
  if s.cfg.N ≤ a then some (.outOfBoundsMemory a) else none

/-- The fault that a fetched instruction raises, if it raises one: its register bytes in their order, then the address
of its stack access. -/
def operandFault (s : State) : Instr → Option FaultRecord
  | .hlt => none
  | .ldi a _ => registerFault a
  | .prn a => registerFault a
  | .mul a b => (registerFault a).or (registerFault b)
  | .push a => (registerFault a).or (memoryFault s (pushAddr s))
  | .pop a => (registerFault a).or (memoryFault s (popAddr s))

@[simp] theorem registerFault_regByte (r : RegNum) : registerFault (regByte r) = none :=
  if_neg (Nat.not_le.2 (regByte_toNat_lt r))

theorem registerFault_of_ge {b : Byte} (h : 8 ≤ b.toNat) : registerFault b = some (.outOfBoundsRegister b) := if_pos h

theorem memoryFault_of_lt {s : State} {a : Nat} (h : a < s.cfg.N) : memoryFault s a = none :=
  if_neg (Nat.not_le.2 h)

theorem memoryFault_of_ge {s : State} {a : Nat} (h : s.cfg.N ≤ a) :
    memoryFault s a = some (.outOfBoundsMemory a) := if_pos h

/-- How an instruction completes from `s`: the state it answers, with all its writes. -/
inductive Completes (s : State) : Instr → State → Prop where
  | hlt : Completes s .hlt (s.halt.advance 1)
  | ldi (r : RegNum) (imm : Byte) : Completes s (.ldi (regByte r) imm) ((s.setReg r imm).advance 3)
  | prn (r : RegNum) : Completes s (.prn (regByte r)) ((s.emit (s.reg r)).advance 2)
  | mul (r q : RegNum) :
      Completes s (.mul (regByte r) (regByte q)) ((s.setReg r (mulByte (s.reg r) (s.reg q))).advance 3)
  | push (r : RegNum) (h : pushAddr s < s.cfg.N) : Completes s (.push (regByte r))
      (((s.store (pushAddr s) (pushValue s r)).setReg spReg (pushSp s)).advance 2)
  | pop (r : RegNum) (h : popAddr s < s.cfg.N) : Completes s (.pop (regByte r))
      (((s.setReg r (s.byte (popAddr s))).setReg spReg
        (incByte ((s.setReg r (s.byte (popAddr s))).reg spReg))).advance 2)

/-! ### The meaning of each instruction, by whether its checks pass -/

theorem exec_prn_of_lt {a : Byte} {s : State} (h : a.toNat < 8) :
    exec (.prn a) s = .next ((s.emit (s.reg ⟨a.toNat, h⟩)).advance 2) := by
  rcases exec_prn_cases a s with ⟨_, hexec⟩ | ⟨hge, _⟩
  · exact hexec
  · omega

theorem exec_prn_of_ge {a : Byte} {s : State} (h : 8 ≤ a.toNat) :
    exec (.prn a) s = .next (s.raise (.outOfBoundsRegister a)) := by
  rcases exec_prn_cases a s with ⟨hlt, _⟩ | ⟨_, hexec⟩
  · omega
  · exact hexec

theorem exec_push_of_lt {a : Byte} {s : State} (ha : a.toNat < 8) (hN : pushAddr s < s.cfg.N) :
    exec (.push a) s =
      .next (((s.store (pushAddr s) (pushValue s ⟨a.toNat, ha⟩)).setReg spReg (pushSp s)).advance 2) := by
  rcases exec_push_cases a s with ⟨_, _, hexec⟩ | ⟨hge, _⟩ | ⟨_, hge, _⟩
  · exact hexec
  · omega
  · omega

theorem exec_push_of_register_ge {a : Byte} {s : State} (ha : 8 ≤ a.toNat) :
    exec (.push a) s = .next (s.raise (.outOfBoundsRegister a)) := by
  rcases exec_push_cases a s with ⟨hlt, _⟩ | ⟨_, hexec⟩ | ⟨hlt, _⟩
  · omega
  · exact hexec
  · omega

theorem exec_push_of_addr_ge {a : Byte} {s : State} (ha : a.toNat < 8) (hN : s.cfg.N ≤ pushAddr s) :
    exec (.push a) s = .next (s.raise (.outOfBoundsMemory (pushAddr s))) := by
  rcases exec_push_cases a s with ⟨_, hlt, _⟩ | ⟨hge, _⟩ | ⟨_, _, hexec⟩
  · omega
  · omega
  · exact hexec

theorem exec_pop_of_lt {a : Byte} {s : State} (ha : a.toNat < 8) (hN : popAddr s < s.cfg.N) :
    exec (.pop a) s = .next (((s.setReg ⟨a.toNat, ha⟩ (s.byte (popAddr s))).setReg spReg
      (incByte ((s.setReg ⟨a.toNat, ha⟩ (s.byte (popAddr s))).reg spReg))).advance 2) := by
  rcases exec_pop_cases a s with ⟨_, _, hexec⟩ | ⟨hge, _⟩ | ⟨_, hge, _⟩
  · exact hexec
  · omega
  · omega

theorem exec_pop_of_register_ge {a : Byte} {s : State} (ha : 8 ≤ a.toNat) :
    exec (.pop a) s = .next (s.raise (.outOfBoundsRegister a)) := by
  rcases exec_pop_cases a s with ⟨hlt, _⟩ | ⟨_, hexec⟩ | ⟨hlt, _⟩
  · omega
  · exact hexec
  · omega

theorem exec_pop_of_addr_ge {a : Byte} {s : State} (ha : a.toNat < 8) (hN : s.cfg.N ≤ popAddr s) :
    exec (.pop a) s = .next (s.raise (.outOfBoundsMemory (popAddr s))) := by
  rcases exec_pop_cases a s with ⟨_, hlt, _⟩ | ⟨hge, _⟩ | ⟨_, _, hexec⟩
  · omega
  · omega
  · exact hexec

/-! ### Every instruction at once -/

/-- `Completes` is what `exec` answers. -/
theorem exec_of_completes {s t : State} {i : Instr} (h : Completes s i t) : exec i s = .next t := by
  cases h with
  | hlt => exact exec_hlt s
  | ldi r imm => simp only [exec_ldi_of_lt (regByte_toNat_lt r), regByte_toNat]
  | prn r => simp only [exec_prn_of_lt (regByte_toNat_lt r), regByte_toNat]
  | mul r q => exact exec_mul_regByte r q s
  | push r hN => simp only [exec_push_of_lt (regByte_toNat_lt r) hN, regByte_toNat]
  | pop r hN => simp only [exec_pop_of_lt (regByte_toNat_lt r) hN, regByte_toNat]

/-- `operandFault` is what `exec` raises; and without one the instruction completes. -/
theorem exec_cases (s : State) (i : Instr) :
    (operandFault s i = none ∧ ∃ t, Completes s i t) ∨
    ∃ f, operandFault s i = some f ∧ exec i s = .next (s.raise f) := by
  have hreg (b : Byte) : (∃ r, b = regByte r) ∨ 8 ≤ b.toNat := (Nat.lt_or_ge b.toNat 8).imp_left exists_regByte
  cases i with
  | hlt => exact .inl ⟨rfl, _, .hlt⟩
  | ldi a imm =>
    rcases hreg a with ⟨r, rfl⟩ | ha
    · exact .inl ⟨registerFault_regByte r, _, .ldi r imm⟩
    · exact .inr ⟨_, registerFault_of_ge ha, exec_ldi_of_ge ha⟩
  | prn a =>
    rcases hreg a with ⟨r, rfl⟩ | ha
    · exact .inl ⟨registerFault_regByte r, _, .prn r⟩
    · exact .inr ⟨_, registerFault_of_ge ha, exec_prn_of_ge ha⟩
  | mul a b =>
    rcases hreg a with ⟨r, rfl⟩ | ha
    · rcases hreg b with ⟨q, rfl⟩ | hb
      · exact .inl ⟨by simp [operandFault], _, .mul r q⟩
      · exact .inr ⟨_, by simp [operandFault, registerFault_of_ge hb],
          exec_mul_of_second_ge (regByte_toNat_lt r) hb⟩
    · exact .inr ⟨_, by simp [operandFault, registerFault_of_ge ha], exec_mul_of_first_ge ha⟩
  | push a =>
    rcases hreg a with ⟨r, rfl⟩ | ha
    · rcases Nat.lt_or_ge (pushAddr s) s.cfg.N with hN | hN
      · exact .inl ⟨by simp [operandFault, memoryFault_of_lt hN], _, .push r hN⟩
      · exact .inr ⟨_, by simp [operandFault, memoryFault_of_ge hN], exec_push_of_addr_ge (regByte_toNat_lt r) hN⟩
    · exact .inr ⟨_, by simp [operandFault, registerFault_of_ge ha], exec_push_of_register_ge ha⟩
  | pop a =>
    rcases hreg a with ⟨r, rfl⟩ | ha
    · rcases Nat.lt_or_ge (popAddr s) s.cfg.N with hN | hN
      · exact .inl ⟨by simp [operandFault, memoryFault_of_lt hN], _, .pop r hN⟩
      · exact .inr ⟨_, by simp [operandFault, memoryFault_of_ge hN], exec_pop_of_addr_ge (regByte_toNat_lt r) hN⟩
    · exact .inr ⟨_, by simp [operandFault, registerFault_of_ge ha], exec_pop_of_register_ge ha⟩

theorem exec_of_operandFault {s : State} {i : Instr} {f : FaultRecord} (h : operandFault s i = some f) :
    exec i s = .next (s.raise f) := by
  rcases exec_cases s i with ⟨hnone, _⟩ | ⟨g, hg, hexec⟩
  · simp [hnone] at h
  · rwa [Option.some.inj (h.symm.trans hg)]

/-- The inversion of `exec`: with every check passed the instruction completes, else it raises the fault of the first
that did not. -/
theorem exec_next_cases {s t : State} {i : Instr} (h : exec i s = .next t) :
    (operandFault s i = none ∧ Completes s i t) ∨ ∃ f, operandFault s i = some f ∧ t = s.raise f := by
  rcases exec_cases s i with ⟨hnone, u, hu⟩ | ⟨f, hf, hexec⟩
  · cases (exec_of_completes hu).symm.trans h
    exact .inl ⟨hnone, hu⟩
  · cases hexec.symm.trans h
    exact .inr ⟨f, hf, rfl⟩

end Sys2Proof.Proofs

namespace Sys2Proof.Proofs

open Sys2Proof Sys2Proof.Machine

/-! ### What an instruction that completes leaves unchanged -/

section

variable {s t : State} {i : Instr} (h : Completes s i t)
include h

theorem Completes.cfg : t.cfg = s.cfg := by cases h <;> rfl

theorem Completes.loaded : t.loaded = s.loaded := by cases h <;> rfl

theorem Completes.fault : t.fault = s.fault := by cases h <;> rfl

theorem Completes.pc : t.pc = s.pc + i.len := by cases h <;> rfl

theorem Completes.status : t.status = if i = .hlt then .halted else s.status := by cases h <;> rfl

theorem Completes.status_ne_faulted (hs : s.status ≠ .faulted) : t.status ≠ .faulted := by
  rw [h.status]
  split <;> simp [hs]

/-- 10_state.md R22, column "writes". -/
theorem Completes.reg {q : RegNum} (hq : q ∉ writesRegs i) : t.reg q = s.reg q := by
  cases h with
  | hlt => rfl
  | prn r => rfl
  | ldi r _ | mul r _ =>
    have hne : q ≠ r := by simpa [writesRegs] using hq
    simp [hne.symm]
  | push r _ =>
    have hne : q ≠ spReg := by simpa [writesRegs] using hq
    simp [hne.symm]
  | pop r _ =>
    obtain ⟨hsp, hne⟩ : q ≠ spReg ∧ q ≠ r := by simpa [writesRegs] using hq
    simp [hsp.symm, hne.symm]

/-- 10_state.md R34: only PRN appends to the output. -/
theorem Completes.out : t.out = s.out ∨ ∃ r, i = .prn (regByte r) ∧ t.out = s.out ++ [s.reg r] := by
  cases h with
  | prn r => exact .inr ⟨r, rfl, rfl⟩
  | hlt | ldi | mul | push | pop => exact .inl rfl

/-- 10_state.md R35: only PUSH stores. -/
theorem Completes.mem : t.mem = s.mem ∨
    ∃ r, i = .push (regByte r) ∧ pushAddr s < s.cfg.N ∧ t.mem = s.mem.set (pushAddr s) (pushValue s r) := by
  cases h with
  | push r hN => exact .inr ⟨r, rfl, hN, rfl⟩
  | hlt | ldi | prn | mul | pop => exact .inl rfl

theorem Completes.byte {c : Nat} (hc : c ≠ pushAddr s) : t.byte c = s.byte c := by
  unfold State.byte
  rcases h.mem with hmem | ⟨r, _, _, hmem⟩
  · rw [hmem]
  · rw [hmem, Memory.get_set_other _ _ hc]

end

/-! ### The frame of each instruction -/

/-- Settles O16: LDI and MUL write the one register of their column (`Completes.reg`), and a fault none. -/
theorem registerWritersFrame : Obligations.RegisterWritersFrame := by
  intro i a hi s t h
  rcases exec_next_cases h with ⟨_, hdone⟩ | ⟨f, _, rfl⟩
  · have hwrites : ∀ r : RegNum, r.val ≠ a.toNat → r ∉ writesRegs i := by
      rcases hi with ⟨imm, rfl⟩ | ⟨b, rfl⟩ <;> simp [writesRegs, mem_regsNamed]
    obtain ⟨hmem, hout, hstatus⟩ : t.mem = s.mem ∧ t.out = s.out ∧ t.status = s.status := by
      rcases hi with ⟨imm, rfl⟩ | ⟨b, rfl⟩ <;> cases hdone <;> exact ⟨rfl, rfl, rfl⟩
    exact ⟨fun r hr => hdone.reg (hwrites r hr), fun c => congrArg (Memory.get · c) hmem, hout, hdone.cfg,
      hdone.loaded, .inl ⟨hstatus, hdone.fault⟩⟩
  · simp

/-- Settles O17: HLT has one outcome, PRN completes or raises (`exec_next_cases`). -/
theorem hltAndPrnFrame : Obligations.HltAndPrnFrame := by
  constructor
  · intro s t h
    cases (exec_hlt s).symm.trans h
    simp
  · intro a s t h
    rcases exec_next_cases h with ⟨_, hdone⟩ | ⟨f, _, rfl⟩
    · cases hdone
      simp
    · simp

/-- Settles O18: a completed PUSH by `Completes.byte` and `Completes.reg`; a fault writes no cell and no register. -/
theorem pushFrame : Obligations.PushFrame := by
  intro a s t h
  rcases exec_next_cases h with ⟨_, hdone⟩ | ⟨f, _, rfl⟩
  · refine ⟨fun c => hdone.byte, fun r hr => hdone.reg (by simpa [writesRegs] using hr), ?_, hdone.cfg, hdone.loaded,
      .inl ⟨hdone.status, hdone.fault⟩⟩
    cases hdone
    rfl
  · simp

/-- Settles O19: a completed POP by `Completes.reg`; a fault writes no register. -/
theorem popFrame : Obligations.PopFrame := by
  intro a s t h
  rcases exec_next_cases h with ⟨_, hdone⟩ | ⟨f, _, rfl⟩
  · refine ⟨fun c => ?memory, fun r hr hra => hdone.reg (by simp [writesRegs, mem_regsNamed, hr, hra]), ?out, hdone.cfg,
      hdone.loaded, .inl ⟨hdone.status, hdone.fault⟩⟩
    case memory => cases hdone; rfl
    case out => cases hdone; rfl
  · simp

/-! ### What an instruction depends on -/

/-- 10_state.md R25: `pc` is no operand of an instruction that completes. -/
theorem Completes.of_pc {s t : State} {i : Instr} (h : Completes s i t) (p : Nat) :
    Completes { s with pc := p } i { t with pc := p + i.len } := by
  cases h with
  | hlt => exact .hlt
  | ldi r imm => exact .ldi r imm
  | prn r => exact .prn r
  | mul r q => exact .mul r q
  | push r hN => exact .push r hN
  | pop r hN => exact .pop r hN

theorem operandFault_of_pc (s : State) (i : Instr) (p : Nat) :
    operandFault { s with pc := p } i = operandFault s i := by cases i <;> rfl

/-- Settles O21: neither the completion (`Completes.of_pc`) nor the checks (`operandFault_of_pc`) read `pc`. -/
theorem programCounterIsNoOperand : Obligations.ProgramCounterIsNoOperand := by
  intro i s p
  rcases exec_cases s i with ⟨_, t, hdone⟩ | ⟨f, hf, hexec⟩
  · refine ⟨t, i.len, .inl ⟨rfl, hdone.status_ne_faulted⟩, ?_, exec_of_completes (hdone.of_pc p)⟩
    rw [exec_of_completes hdone, ← hdone.pc]
  · exact ⟨s.raise f, 0, .inr ⟨rfl, rfl⟩, hexec, exec_of_operandFault ((operandFault_of_pc s i p).trans hf)⟩

section

variable {s : State} {x' : Vector Byte 8}

theorem pushAddr_of_x (hsp : x'[spReg.val] = s.reg spReg) : pushAddr { s with x := x' } = pushAddr s :=
  congrArg (fun sp => (decByte sp).toNat) hsp

theorem popAddr_of_x (hsp : x'[spReg.val] = s.reg spReg) : popAddr { s with x := x' } = popAddr s :=
  congrArg BitVec.toNat hsp

theorem pushValue_of_x {r : RegNum} (hsp : x'[spReg.val] = s.reg spReg) (hr : x'[r.val] = s.reg r) :
    pushValue { s with x := x' } r = pushValue s r := by
  simp only [pushValue, pushSp, State.reg]
  rw [hsp, hr]
  rfl

/-- 10_state.md R22, column "reads", of the checks. -/
theorem operandFault_of_x {i : Instr} (hx : ∀ q ∈ readsRegs i, x'[q.val] = s.reg q) :
    operandFault { s with x := x' } i = operandFault s i := by
  cases i with
  | hlt | ldi | prn | mul => rfl
  | push a =>
    exact congrArg (fun addr => (registerFault a).or (memoryFault s addr)) (pushAddr_of_x (hx _ (by simp [readsRegs])))
  | pop a =>
    exact congrArg (fun addr => (registerFault a).or (memoryFault s addr)) (popAddr_of_x (hx _ (by simp [readsRegs])))

/-- 10_state.md R22, column "reads", of an instruction that completes: with the other registers changed it completes
too, and every register it writes comes out the same. -/
theorem Completes.of_x {t : State} {i : Instr} (h : Completes s i t) (hx : ∀ q ∈ readsRegs i, x'[q.val] = s.reg q) :
    ∃ t', Completes { s with x := x' } i t' ∧
      t'.mem = t.mem ∧ t'.out = t.out ∧ t'.pc = t.pc ∧ t'.status = t.status ∧ t'.fault = t.fault ∧
      ∀ q ∈ writesRegs i, t'.reg q = t.reg q := by
  have hreg : ∀ q ∈ readsRegs i, ({ s with x := x' } : State).reg q = s.reg q := hx
  cases h with
  | hlt => exact ⟨_, .hlt, rfl, rfl, rfl, rfl, rfl, by simp [writesRegs]⟩
  | ldi r imm => exact ⟨_, .ldi r imm, rfl, rfl, rfl, rfl, rfl, by simp [writesRegs]⟩
  | prn r =>
    have hr := hreg r (by simp [readsRegs])
    exact ⟨_, .prn r, rfl, by simp [hr], rfl, rfl, rfl, by simp [writesRegs]⟩
  | mul r q =>
    have hr := hreg r (by simp [readsRegs])
    have hq := hreg q (by simp [readsRegs])
    exact ⟨_, .mul r q, rfl, rfl, rfl, rfl, rfl, by simp [writesRegs, hr, hq]⟩
  | push r hN =>
    have hsp := hx spReg (by simp [readsRegs])
    have haddr := pushAddr_of_x hsp
    refine ⟨_, .push r (haddr ▸ hN), ?_, rfl, rfl, rfl, rfl, ?_⟩
    · simp [haddr, pushValue_of_x hsp (hx r (by simp [readsRegs]))]
    · simp [writesRegs, pushSp, hreg spReg (by simp [readsRegs])]
  | pop r hN =>
    have hsp := hreg spReg (by simp [readsRegs])
    have haddr := popAddr_of_x (hx spReg (by simp [readsRegs]))
    refine ⟨_, .pop r (haddr ▸ hN), rfl, rfl, rfl, rfl, rfl, ?_⟩
    simp [writesRegs, haddr, hsp, State.byte]

end

/-- Settles O20: a fault changes no register and depends on the checks alone (`operandFault_of_x`); the rest is
`Completes.reg` and `Completes.of_x`. -/
theorem registersReadAndWrittenAsListed : Obligations.RegistersReadAndWrittenAsListed := by
  refine ⟨?written, ?read, fun a b s q hq => ?aluWritten, fun a b s x' ha hb => ?aluRead⟩
  case written =>
    intro i s t h q hq
    rcases exec_next_cases h with ⟨_, hdone⟩ | ⟨f, _, rfl⟩
    · exact hdone.reg hq
    · rfl
  case read =>
    intro i s t x' h hx
    rcases exec_next_cases h with ⟨_, hdone⟩ | ⟨f, hf, rfl⟩
    · obtain ⟨t', hdone', hmem, hout, hpc, hstatus, hfault, hwritten⟩ := hdone.of_x hx
      exact ⟨t', exec_of_completes hdone', hmem, hout, hpc, hstatus, hfault, fun _ _ => hwritten⟩
    · exact ⟨_, exec_of_operandFault ((operandFault_of_x hx).trans hf), rfl, rfl, rfl, rfl, rfl,
        fun _ hne => absurd (State.raise_status s f) hne⟩
  case aluWritten => simp [alu, hq.symm]
  case aluRead =>
    have hra : ({ s with x := x' } : State).reg a = s.reg a := ha
    have hrb : ({ s with x := x' } : State).reg b = s.reg b := hb
    simp [alu, hra, hrb]

end Sys2Proof.Proofs

namespace Sys2Proof.Proofs

open Sys2Proof Sys2Proof.Machine

/-! ### The faults, in range -/

theorem registerFault_eq_some_iff {b : Byte} {f : FaultRecord} :
    registerFault b = some f ↔ 8 ≤ b.toNat ∧ f = .outOfBoundsRegister b := by
  simp [registerFault, eq_comm]

theorem memoryFault_eq_some_iff {s : State} {a : Nat} {f : FaultRecord} :
    memoryFault s a = some f ↔ s.cfg.N ≤ a ∧ f = .outOfBoundsMemory a := by
  simp [memoryFault, eq_comm]

/-- The fault of an instruction is an illegal register byte of it, or a byte-wide stack address outside the memory. -/
theorem operandFault_eq_some_cases {s : State} {i : Instr} {f : FaultRecord} (h : operandFault s i = some f) :
    (i.wf = false ∧ ∃ b : Byte, 8 ≤ b.toNat ∧ f = .outOfBoundsRegister b) ∨
    ∃ sp : Byte, s.cfg.N ≤ sp.toNat ∧ f = .outOfBoundsMemory sp.toNat := by
  have register {b : Byte} (hwf : regByteOk b = false → i.wf = false) (hb : registerFault b = some f) :
      i.wf = false ∧ ∃ b : Byte, 8 ≤ b.toNat ∧ f = .outOfBoundsRegister b := by
    obtain ⟨hge, rfl⟩ := registerFault_eq_some_iff.1 hb
    exact ⟨hwf (decide_eq_false (Nat.not_lt.2 hge)), b, hge, rfl⟩
  cases i with
  | hlt => cases h
  | ldi a imm => exact .inl (register id h)
  | prn a => exact .inl (register id h)
  | mul a b =>
    rcases Option.or_eq_some_iff.1 h with ha | ⟨_, hb⟩
    · exact .inl (register (fun hok => by simp [Instr.wf, hok]) ha)
    · exact .inl (register (fun hok => by simp [Instr.wf, hok]) hb)
  | push a =>
    rcases Option.or_eq_some_iff.1 h with ha | ⟨_, hN⟩
    · exact .inl (register id ha)
    · exact .inr ⟨pushSp s, memoryFault_eq_some_iff.1 hN⟩
  | pop a =>
    rcases Option.or_eq_some_iff.1 h with ha | ⟨_, hN⟩
    · exact .inl (register id ha)
    · exact .inr ⟨s.reg spReg, memoryFault_eq_some_iff.1 hN⟩

/-- Settles O30: no byte is an address outside a memory of 256 cells. -/
theorem fullMemoryHasNoStackFault : Obligations.FullMemoryHasNoStackFault := by
  intro i s t hN hs h ht
  rcases exec_next_cases h with ⟨_, hdone⟩ | ⟨f, hf, rfl⟩
  · exact absurd ht (hdone.status_ne_faulted hs)
  · rcases operandFault_eq_some_cases hf with ⟨hwf, b, hb, rfl⟩ | ⟨sp, hsp, _⟩
    · exact ⟨hwf, b, hb, rfl⟩
    · have := sp.isLt
      omega

/-- 60_exceptions.md R168, checks 1 to 4: why a fetch fails. -/
theorem fetch_error_cases {s : State} {f : FaultRecord} (h : fetch s = .error f) :
    (s.cfg.N ≤ s.pc ∧ f = .outOfBoundsMemory s.pc) ∨
    (s.pc < s.cfg.N ∧ lookupOpcode (s.byte s.pc) = none ∧ f = .unrecognizedOpcode s.pc (s.byte s.pc)) ∨
    ∃ n, s.pc < s.cfg.N ∧ opcodeLen (s.byte s.pc) = some n ∧ s.cfg.N < s.pc + n ∧ f = .outOfBoundsMemory s.cfg.N := by
  rcases Nat.lt_or_ge s.pc s.cfg.N with hpc | hpc
  · cases hlen : opcodeLen (s.byte s.pc) with
    | none =>
      have hrow : lookupOpcode (s.byte s.pc) = none := Option.map_eq_none_iff.1 hlen
      cases (fetch_of_lookupOpcode_none hpc hrow).symm.trans h
      exact .inr (.inl ⟨hpc, hrow, rfl⟩)
    | some n =>
      rcases Nat.lt_or_ge s.cfg.N (s.pc + n) with hend | hend
      · cases (fetch_across_the_end hpc hlen hend).symm.trans h
        exact .inr (.inr ⟨n, hpc, rfl, hend, rfl⟩)
      · obtain ⟨i, hfetch, _⟩ := fetch_inside hlen hend
        cases hfetch.symm.trans h
  · cases (fetch_of_pc_outside hpc).symm.trans h
    exact .inl ⟨hpc, rfl⟩

theorem inRange_of_fetch_error {s : State} {f : FaultRecord} (hpc : s.pc ≤ s.cfg.N) (h : fetch s = .error f) :
    f.inRange s := by
  rcases fetch_error_cases h with ⟨hge, rfl⟩ | ⟨hlt, hrow, rfl⟩ | ⟨n, _, _, _, rfl⟩
  · exact ⟨hge, hpc.trans (Nat.le_max_left _ _)⟩
  · exact ⟨rfl, hlt, hrow⟩
  · exact ⟨Nat.le_refl _, Nat.le_max_left _ _⟩

theorem inRange_of_operandFault {s : State} {i : Instr} {f : FaultRecord} (h : operandFault s i = some f) :
    f.inRange s := by
  rcases operandFault_eq_some_cases h with ⟨_, b, hb, rfl⟩ | ⟨sp, hsp, rfl⟩
  · exact hb
  · exact ⟨hsp, (Nat.le_of_lt_succ sp.isLt).trans (Nat.le_max_right _ _)⟩

/-! ### The step -/

/-- The inversion of the step of a running core: the instruction at `pc` completes, or a fault in range is raised. -/
theorem step_next_cases {s t : State} (hs : s.status = .running) (h : step s = .next t) :
    (∃ i, fetches s i ∧ Completes s i t) ∨ ∃ f, (s.pc ≤ s.cfg.N → f.inRange s) ∧ t = s.raise f := by
  cases hfetch : fetch s with
  | error f =>
    cases (step_unfetched hs hfetch).symm.trans h
    exact .inr ⟨f, fun hpc => inRange_of_fetch_error hpc hfetch, rfl⟩
  | ok i =>
    rcases exec_next_cases ((step_fetched hs hfetch).symm.trans h) with ⟨_, hdone⟩ | ⟨f, hf, rfl⟩
    · exact .inl ⟨i, fetches_of_fetch hfetch, hdone⟩
    · exact .inr ⟨f, fun _ => inRange_of_operandFault hf, rfl⟩

/-- Settles O38: what completes is not faulted. -/
theorem faultsArePrecise : Obligations.FaultsArePrecise := by
  intro s t hs h ht
  rcases step_next_cases hs h with ⟨i, _, hdone⟩ | ⟨f, _, rfl⟩
  · exact absurd ht (hdone.status_ne_faulted (by simp [hs]))
  · exact ⟨f, rfl⟩

/-! ### The invariant -/

theorem inv_resetWith (c : Config) : (State.resetWith c).Inv where
  pc_le := Nat.zero_le _
  mem_wf := Memory.nil_wf
  mem_in := by simp
  fault_iff := by simp
  fault_range := by simp
  idle_fresh _ := ⟨rfl, rfl, rfl⟩
  idle_zero _ _ := rfl

/-- Settles O42: the default reset is that of one configuration. -/
theorem invariantHoldsAtReset : Obligations.InvariantHoldsAtReset := ⟨inv_resetWith, inv_resetWith _⟩

theorem fault_eq_none_of_inv {s : State} (hs : s.Inv) (hstatus : s.status ≠ .faulted) : s.fault = none := by
  simpa using mt hs.fault_iff.1 hstatus

theorem inRange_raise_iff {s : State} {f g : FaultRecord} : f.inRange (s.raise g) ↔ f.inRange s := by
  cases f <;> rfl

theorem inv_raise {s : State} {f : FaultRecord} (hs : s.Inv) (hf : f.inRange s) : (s.raise f).Inv where
  pc_le := hs.pc_le
  mem_wf := hs.mem_wf
  mem_in := hs.mem_in
  fault_iff := by simp
  fault_range g hg := by
    cases hg
    exact inRange_raise_iff.2 hf
  idle_fresh hidle := by simp at hidle
  idle_zero hidle := by simp at hidle

theorem Completes.mem_wf {s t : State} {i : Instr} (h : Completes s i t) (hs : s.mem.wf) : t.mem.wf := by
  rcases h.mem with hmem | ⟨r, _, _, hmem⟩
  · rwa [hmem]
  · rw [hmem]
    exact Memory.set_wf _ _ _ hs

theorem Completes.mem_below {s t : State} {i : Instr} (h : Completes s i t) (hs : s.mem.below s.cfg.N) :
    t.mem.below s.cfg.N := by
  rcases h.mem with hmem | ⟨r, _, hN, hmem⟩
  · rwa [hmem]
  · rw [hmem]
    exact Memory.set_below _ hs hN

/-- An instruction that completes keeps the invariant: it stood inside the memory, so `pc` does not pass `N`. -/
theorem Completes.inv {s t : State} {i : Instr} (h : Completes s i t) (hs : s.Inv) (hrun : s.status = .running)
    (hfetches : fetches s i) : t.Inv := by
  have hidle : t.status ≠ .idle := by
    rw [h.status]
    split <;> simp [hrun]
  have hnotFaulted : t.status ≠ .faulted := h.status_ne_faulted (by simp [hrun])
  have hfault : t.fault = none := h.fault.trans (fault_eq_none_of_inv hs (by simp [hrun]))
  refine ⟨?pc_le, h.mem_wf hs.mem_wf, ?mem_in, ?fault_iff, ?fault_range, (absurd · hidle), (absurd · hidle)⟩
  case pc_le =>
    rw [h.pc, h.cfg]
    exact hfetches.1
  case mem_in =>
    rw [h.cfg]
    exact h.mem_below hs.mem_in
  case fault_iff => simp [hfault, hnotFaulted]
  case fault_range => simp [hfault]

/-- Settles O43: a completed instruction keeps the invariant (`Completes.inv`), and so does a fault in range. -/
theorem stepKeepsTheInvariant : Obligations.StepKeepsTheInvariant := by
  intro s t hs h
  by_cases hrun : s.status = .running
  · rcases step_next_cases hrun h with ⟨i, hfetches, hdone⟩ | ⟨f, hf, rfl⟩
    · exact hdone.inv hs hrun hfetches
    · exact inv_raise hs (hf hs.pc_le)
  · cases (step_not_running hrun).symm.trans h
    exact hs

/-! ### What a step does to the output and to the memory -/

/-- 10_state.md R34 for the core: a step appends only at a PRN. -/
theorem step_out_cases {s t : State} (h : step s = .next t) :
    t.out = s.out ∨ ∃ r : RegNum, s.status = .running ∧ fetches s (.prn (regByte r)) ∧ t.out = s.out ++ [s.reg r] := by
  by_cases hrun : s.status = .running
  · rcases step_next_cases hrun h with ⟨i, hfetches, hdone⟩ | ⟨f, _, rfl⟩
    · rcases hdone.out with hkeep | ⟨r, rfl, hemit⟩
      · exact .inl hkeep
      · exact .inr ⟨r, hrun, hfetches, hemit⟩
    · exact .inl rfl
  · cases (step_not_running hrun).symm.trans h
    exact .inl rfl

/-- 10_state.md R35 for the core: a step stores only at a PUSH, to the address it computes. -/
theorem step_byte_cases {s t : State} (h : step s = .next t) {c : Nat} (hc : t.byte c ≠ s.byte c) :
    s.status = .running ∧ c = pushAddr s ∧ ∃ a, fetches s (.push a) := by
  by_cases hrun : s.status = .running
  · rcases step_next_cases hrun h with ⟨i, hfetches, hdone⟩ | ⟨f, _, rfl⟩
    · rcases hdone.mem with hmem | ⟨r, rfl, _⟩
      · exact absurd (congrArg (Memory.get · c) hmem) hc
      · exact ⟨hrun, of_not_not (mt hdone.byte hc), _, hfetches⟩
    · exact absurd rfl hc
  · cases (step_not_running hrun).symm.trans h
    exact absurd rfl hc

/-- 10_state.md R36 for the core. -/
theorem step_cfg {s t : State} (h : step s = .next t) : t.cfg = s.cfg := by
  by_cases hrun : s.status = .running
  · rcases step_next_cases hrun h with ⟨i, _, hdone⟩ | ⟨f, _, rfl⟩
    · exact hdone.cfg
    · rfl
  · cases (step_not_running hrun).symm.trans h
    rfl

/-! ### The bytes of each instruction at `pc` -/

theorem forall_getElem_cons {g : Nat → Byte} {b : Byte} {bs : List Byte} :
    (∀ k (h : k < (b :: bs).length), g k = (b :: bs)[k]) ↔ g 0 = b ∧ ∀ k (h : k < bs.length), g (k + 1) = bs[k] := by
  constructor
  · exact fun h => ⟨h 0 (by simp), fun k hk => h (k + 1) (by simpa using hk)⟩
  · rintro ⟨hzero, hsucc⟩ k hk
    cases k with
    | zero => exact hzero
    | succ k => exact hsucc k (by simpa using hk)

section

variable {s : State}

theorem fetches_iff_of_one {i : Instr} {op : Byte} (hi : encode i = [op]) :
    fetches s i ↔ s.pc + 1 ≤ s.cfg.N ∧ s.byte s.pc = op := by
  simp only [fetches, ← encode_length, hi, forall_getElem_cons]
  simp

theorem fetches_iff_of_two {i : Instr} {op a : Byte} (hi : encode i = [op, a]) :
    fetches s i ↔ s.pc + 2 ≤ s.cfg.N ∧ s.byte s.pc = op ∧ s.byte (s.pc + 1) = a := by
  simp only [fetches, ← encode_length, hi, forall_getElem_cons]
  simp

theorem fetches_iff_of_three {i : Instr} {op a b : Byte} (hi : encode i = [op, a, b]) :
    fetches s i ↔ s.pc + 3 ≤ s.cfg.N ∧ s.byte s.pc = op ∧ s.byte (s.pc + 1) = a ∧ s.byte (s.pc + 2) = b := by
  simp only [fetches, ← encode_length, hi, forall_getElem_cons]
  simp

end

/-! ### The order of the checks -/

/-- Checks in sequence, as `or` and as `if`. -/
theorem some_ite_or {p : Prop} [Decidable p] (f : FaultRecord) (o : Option FaultRecord) :
    (if p then some f else none).or o = if p then some f else o := by
  split <;> rfl

/-- 60_exceptions.md R168: with the instruction at `pc` whole, checks 1 to 4 pass, and 5 to 7 are those of
`operandFault`. -/
theorem firstFault_of_fetches {s : State} {i : Instr} (h : fetches s i) : firstFault s = operandFault s i := by
  have hpush : pushAddr s = ((s.reg spReg).toNat + 255) % 256 := BitVec.toNat_ofNat _ 8
  have hpop : popAddr s = (s.reg spReg).toNat := rfl
  cases i with
  | hlt =>
    obtain ⟨hN, hop⟩ := (fetches_iff_of_one rfl).1 h
    have hpc : ¬ s.cfg.N ≤ s.pc := by omega
    simp [firstFault, operandFault, hop, hpc]
  | ldi a imm =>
    obtain ⟨hN, hop, ha, _⟩ := (fetches_iff_of_three rfl).1 h
    have hpc : ¬ s.cfg.N ≤ s.pc := by omega
    have hpca : ¬ s.cfg.N ≤ s.pc + 1 := by omega
    have hpcb : ¬ s.cfg.N ≤ s.pc + 2 := by omega
    simp [firstFault, operandFault, registerFault, hop, ha, hpc, hpca, hpcb]
  | prn a =>
    obtain ⟨hN, hop, ha⟩ := (fetches_iff_of_two rfl).1 h
    have hpc : ¬ s.cfg.N ≤ s.pc := by omega
    have hpca : ¬ s.cfg.N ≤ s.pc + 1 := by omega
    simp [firstFault, operandFault, registerFault, hop, ha, hpc, hpca]
  | mul a b =>
    obtain ⟨hN, hop, ha, hb⟩ := (fetches_iff_of_three rfl).1 h
    have hpc : ¬ s.cfg.N ≤ s.pc := by omega
    have hpca : ¬ s.cfg.N ≤ s.pc + 1 := by omega
    have hpcb : ¬ s.cfg.N ≤ s.pc + 2 := by omega
    simp [firstFault, operandFault, registerFault, some_ite_or, hop, ha, hb, hpc, hpca, hpcb]
  | push a =>
    obtain ⟨hN, hop, ha⟩ := (fetches_iff_of_two rfl).1 h
    have hpc : ¬ s.cfg.N ≤ s.pc := by omega
    have hpca : ¬ s.cfg.N ≤ s.pc + 1 := by omega
    simp [firstFault, operandFault, registerFault, memoryFault, some_ite_or, hop, ha, hpush, hpc, hpca]
  | pop a =>
    obtain ⟨hN, hop, ha⟩ := (fetches_iff_of_two rfl).1 h
    have hpc : ¬ s.cfg.N ≤ s.pc := by omega
    have hpca : ¬ s.cfg.N ≤ s.pc + 1 := by omega
    simp [firstFault, operandFault, registerFault, memoryFault, some_ite_or, hpop, hop, ha, hpc, hpca]

section

variable {s : State}

theorem firstFault_at_top (hop : s.byte s.pc ∈ [0x45#8, 0x46#8, 0x47#8, 0x82#8, 0xA2#8])
    (hN : s.cfg.N = s.pc + 1) : firstFault s = some (.outOfBoundsMemory s.cfg.N) := by
  simp only [List.mem_cons, List.not_mem_nil, or_false] at hop
  rcases hop with hop | hop | hop | hop | hop <;> simp [firstFault, hop, hN]

theorem firstFault_below_top (hop : s.byte s.pc = 0x82#8 ∨ s.byte s.pc = 0xA2#8) (hN : s.cfg.N = s.pc + 2) :
    firstFault s = some (.outOfBoundsMemory s.cfg.N) := by
  rcases hop with hop | hop <;> simp [firstFault, hop, hN]

/-- 60_exceptions.md R168, checks 3 and 4: the first operand byte outside the memory is the one at `N`. -/
theorem firstFault_across_the_end {n : Nat} (hpc : s.pc < s.cfg.N) (hlen : opcodeLen (s.byte s.pc) = some n)
    (hend : s.cfg.N < s.pc + n) : firstFault s = some (.outOfBoundsMemory s.cfg.N) := by
  have two (hop : s.byte s.pc ∈ [0x45#8, 0x46#8, 0x47#8, 0x82#8, 0xA2#8]) (hend : s.cfg.N < s.pc + 2) :=
    firstFault_at_top hop (by omega)
  have three (hop : s.byte s.pc = 0x82#8 ∨ s.byte s.pc = 0xA2#8) (hend : s.cfg.N < s.pc + 3) :
      firstFault s = some (.outOfBoundsMemory s.cfg.N) := by
    rcases Nat.lt_or_ge s.cfg.N (s.pc + 2) with hN | hN
    · exact two (by rcases hop with hop | hop <;> simp [hop]) hN
    · exact firstFault_below_top hop (by omega)
  obtain ⟨row, hrow, rfl⟩ := Option.map_eq_some_iff.1 hlen
  rcases lookupOpcode_cases hrow with
    ⟨_, rfl⟩ | ⟨hop, rfl⟩ | ⟨hop, rfl⟩ | ⟨hop, rfl⟩ | ⟨hop, rfl⟩ | ⟨hop, rfl⟩
  · exact absurd hend (Nat.not_lt.2 hpc)
  · exact three (.inl hop) hend
  · exact two (by simp [hop]) hend
  · exact three (.inr hop) hend
  · exact two (by simp [hop]) hend
  · exact two (by simp [hop]) hend

/-- 60_exceptions.md R168, checks 1 to 4. -/
theorem firstFault_of_fetch_error {f : FaultRecord} (h : fetch s = .error f) : firstFault s = some f := by
  rcases fetch_error_cases h with ⟨hge, rfl⟩ | ⟨hlt, hrow, rfl⟩ | ⟨n, hlt, hlen, hend, rfl⟩
  · exact if_pos hge
  · have hother : s.byte s.pc ∉ [0x01#8, 0x45#8, 0x46#8, 0x47#8, 0x82#8, 0xA2#8] := fun hmem =>
      (lookupOpcode_eq_none_iff _).1 hrow (ascending_opcodes_perm_table.mem_iff.1 hmem)
    simp only [firstFault, if_neg (Nat.not_le.2 hlt), if_pos hother]
  · exact firstFault_across_the_end hlt hlen hend

end

/-- Settles O35: checks 1 to 4 are the fetch (`firstFault_of_fetch_error`), 5 to 7 those of the fetched instruction
(`firstFault_of_fetches`). -/
theorem faultChecksInOrder : Obligations.FaultChecksInOrder := by
  intro s hs
  cases hfetch : fetch s with
  | error f =>
    rw [firstFault_of_fetch_error hfetch]
    exact step_unfetched hs hfetch
  | ok i =>
    have hstep : step s = exec i s := step_fetched hs hfetch
    rw [firstFault_of_fetches (fetches_of_fetch hfetch), hstep]
    rcases exec_cases s i with ⟨hnone, t, hdone⟩ | ⟨f, hf, hexec⟩
    · rw [hnone]
      exact ⟨t, exec_of_completes hdone, hdone.status_ne_faulted (by simp [hs]), hdone.fault⟩
    · rw [hf]
      exact hexec

end Sys2Proof.Proofs

namespace Sys2Proof.Proofs

open Sys2Proof Sys2Proof.Machine

/-! ### Memories in canonical form -/

theorem get_cons_self (c : Host.Cell) (m : Memory) : Memory.get (c :: m) c.1 = c.2 := if_pos rfl

theorem get_cons_other {c : Host.Cell} {m : Memory} {a : Nat} (h : a ≠ c.1) : Memory.get (c :: m) a = m.get a :=
  if_neg h

theorem head_ne_zero {c : Host.Cell} {m : Memory} (h : Memory.wf (c :: m)) : c.2 ≠ 0#8 := h.2 c List.mem_cons_self

/-- The first address of one canonical memory is not below the first of another that reads the same, since it would
read as 0 there. -/
theorem head_not_lt_of_get_eq {c d : Host.Cell} {m m' : Memory} (hm : Memory.wf (c :: m)) (hm' : Memory.wf (d :: m'))
    (hget : Memory.get (c :: m) c.1 = Memory.get (d :: m') c.1) : ¬ c.1 < d.1 := by
  intro hlt
  have hzero : Memory.get (d :: m') c.1 = 0#8 := by
    refine Memory.get_of_lt_head fun e he => ?_
    rcases List.mem_cons.1 he with rfl | he
    · exact hlt
    · exact hlt.trans (Memory.wf_head_lt hm' e he)
  rw [get_cons_self, hzero] at hget
  exact head_ne_zero hm hget

/-- Settles O9: by induction on both lists, whose first addresses cannot differ (`head_not_lt_of_get_eq`). -/
theorem equalReadsAreEqualMemories : Obligations.EqualReadsAreEqualMemories := by
  intro m
  induction m with
  | nil =>
    rintro (_ | ⟨d, m'⟩) _ hm' hget
    · rfl
    · exact absurd ((get_cons_self d m').symm.trans (hget d.1).symm) (head_ne_zero hm')
  | cons c m ih =>
    rintro (_ | ⟨d, m'⟩) hm hm' hget
    · exact absurd ((get_cons_self c m).symm.trans (hget c.1)) (head_ne_zero hm)
    · have haddr : c.1 = d.1 := Nat.le_antisymm
        (Nat.le_of_not_lt (head_not_lt_of_get_eq hm' hm (hget d.1).symm))
        (Nat.le_of_not_lt (head_not_lt_of_get_eq hm hm' (hget c.1)))
      have hvalue : c.2 = d.2 := by
        rw [← get_cons_self c m, ← get_cons_self d m', hget, haddr]
      have htail : m = m' := by
        refine ih m' (Memory.wf_tail hm) (Memory.wf_tail hm') fun a => ?_
        by_cases ha : a = c.1
        · rw [ha, Memory.get_of_lt_head (Memory.wf_head_lt hm), haddr, Memory.get_of_lt_head (Memory.wf_head_lt hm')]
        · rw [← get_cons_other ha, hget, get_cons_other (haddr ▸ ha)]
      rw [Prod.ext haddr hvalue, htail]

/-! ### The Loader's writes -/

/-- 70_reset_and_hazards.md R196: byte `c - a` of the program stands at `c`, and the other cells are as they were. -/
theorem loadBytes_get (bytes : List Byte) (a : Nat) (m : Memory) (c : Nat) (hm : m.wf) :
    (loadBytes a bytes m).get c = if c < a then m.get c else (bytes[c - a]?).getD (m.get c) := by
  induction bytes generalizing a m with
  | nil => simp [loadBytes]
  | cons b bs ih =>
    rw [loadBytes, ih _ _ (Memory.set_wf m a b hm), Memory.get_set m a c b hm]
    rcases Nat.lt_trichotomy c a with hlt | rfl | hgt
    · simp [hlt, Nat.lt_succ_of_lt hlt, hlt.ne]
    · simp
    · have hsub : c - a = c - (a + 1) + 1 := by omega
      simp [hsub, hgt.ne', Nat.not_lt.2 hgt, hgt.not_gt]

/-- The cells past the program keep their value, canonical form or not. -/
theorem loadBytes_get_of_ge (bytes : List Byte) (a : Nat) (m : Memory) {c : Nat} (hc : a + bytes.length ≤ c) :
    (loadBytes a bytes m).get c = m.get c := by
  induction bytes generalizing a m with
  | nil => rfl
  | cons b bs ih =>
    rw [List.length_cons] at hc
    rw [loadBytes, ih _ _ (by omega), Memory.get_set_other m b (by omega)]

/-! ### The operations of the host -/

theorem loadAccepted_iff {s : State} {bytes : List Byte} :
    loadAccepted s bytes = true ↔ s.status = .idle ∧ s.loaded = false ∧ bytes.length ≤ s.cfg.N := by
  simp [loadAccepted, and_assoc]

theorem hostLoad_of_accepted {s : State} {bytes : List Byte} (h : loadAccepted s bytes = true) :
    hostLoad bytes s = { s with mem := loadBytes 0 bytes s.mem, loaded := true } := if_pos h

theorem hostLoad_of_refused {s : State} {bytes : List Byte} (h : ¬ loadAccepted s bytes = true) :
    hostLoad bytes s = s := if_neg h

theorem hostStart_of_idle {s : State} (h : s.status = .idle) : hostStart s = { s with status := .running } := if_pos h

/-- 70_reset_and_hazards.md R196: a load writes the memory and its own note, accepted or not. -/
theorem hostLoad_eq (bytes : List Byte) (s : State) :
    hostLoad bytes s = { s with mem := (hostLoad bytes s).mem, loaded := (hostLoad bytes s).loaded } := by
  unfold hostLoad
  split <;> rfl

/-- 70_reset_and_hazards.md R197: `start` writes the status, accepted or not. -/
theorem hostStart_eq (s : State) : hostStart s = { s with status := (hostStart s).status } := by
  unfold hostStart
  split <;> rfl

theorem hostLoad_cfg (bytes : List Byte) (s : State) : (hostLoad bytes s).cfg = s.cfg := by rw [hostLoad_eq]

theorem hostLoad_out (bytes : List Byte) (s : State) : (hostLoad bytes s).out = s.out := by rw [hostLoad_eq]

theorem hostStart_cfg (s : State) : (hostStart s).cfg = s.cfg := by rw [hostStart_eq]

theorem hostStart_out (s : State) : (hostStart s).out = s.out := by rw [hostStart_eq]

theorem hostStart_byte (s : State) (c : Nat) : (hostStart s).byte c = s.byte c := by rw [hostStart_eq]; rfl

/-- 70_reset_and_hazards.md R199. -/
theorem hostStep_of_not_idle {op : HostOp} {s : State} (hs : s.status ≠ .idle) (hop : op ≠ .reset) :
    hostStep op s = s := by
  cases op with
  | reset => exact absurd rfl hop
  | load bytes =>
    refine hostLoad_of_refused fun hacc => ?_
    obtain ⟨hidle, _⟩ := loadAccepted_iff.1 hacc
    exact hs hidle
  | start => exact hostStart_not_idle hs
  | read q => rfl

/-- Settles O54: `hostStep_of_not_idle`, and a read is the identity. -/
theorem hostOnlyReadsACoreThatStarted : Obligations.HostOnlyReadsACoreThatStarted :=
  ⟨fun _ _ => hostStep_of_not_idle, fun _ _ => rfl⟩

/-- Settles O52, by the two branches of `hostStart`. -/
theorem startOnlyFromIdle : Obligations.StartOnlyFromIdle :=
  ⟨fun _ => hostStart_of_idle, fun _ => hostStart_not_idle⟩

theorem resetRegs_eq_set (c : Config) : resetRegs c = (Vector.replicate 8 0#8).set spReg.val c.spInit := rfl

theorem resetWith_reg {c : Config} {r : RegNum} (hr : r ≠ spReg) : (State.resetWith c).reg r = 0#8 := by
  rw [State.reg, State.resetWith_x, resetRegs_eq_set]
  have hval : 7 ≠ r.val := fun h => hr (Fin.ext h.symm)
  simp [hval]

/-- Settles O50: reset is `State.resetWith` of the configuration at hand. -/
theorem resetSetsEveryPieceOfState : Obligations.ResetSetsEveryPieceOfState :=
  ⟨fun _ => ⟨rfl, fun _ => resetWith_reg, rfl, rfl, fun _ => rfl, rfl, rfl, rfl, rfl⟩, rfl, rfl, rfl⟩

/-- Settles O51: the program stands in the memory by `loadBytes_get`; a load is refused by `loadAccepted_iff` when the
program is too long, and once a load was accepted. -/
theorem loadWritesTheProgram : Obligations.LoadWritesTheProgram := by
  refine ⟨?accepted, ?tooLong, ?once⟩
  case accepted =>
    intro bytes s hs hidle hloaded hlen
    have hload := hostLoad_of_accepted (loadAccepted_iff.2 ⟨hidle, hloaded, hlen⟩)
    refine ⟨fun a => ?_, _, hload⟩
    have hget := loadBytes_get bytes 0 s.mem a hs.mem_wf
    rw [hload]
    simpa [State.byte, hs.idle_zero hidle hloaded] using hget
  case tooLong =>
    intro bytes s hlen
    refine hostLoad_of_refused fun hacc => ?_
    obtain ⟨_, _, hle⟩ := loadAccepted_iff.1 hacc
    omega
  case once =>
    intro bytes more s hacc
    rw [hostLoad_of_accepted hacc]
    refine hostLoad_of_refused fun hagain => ?_
    obtain ⟨_, hloaded, _⟩ := loadAccepted_iff.1 hagain
    simp at hloaded

/-- Settles O44: reset by `inv_resetWith`; an accepted load keeps the memory canonical and below `N`; `start` leaves
only `Idle`. -/
theorem hostKeepsTheInvariant : Obligations.HostKeepsTheInvariant := by
  intro op s hs
  cases op with
  | reset => exact inv_resetWith s.cfg
  | read q => exact hs
  | load bytes =>
    change (hostLoad bytes s).Inv
    by_cases hacc : loadAccepted s bytes = true
    · obtain ⟨_, _, hlen⟩ := loadAccepted_iff.1 hacc
      rw [hostLoad_of_accepted hacc]
      exact { hs with
        mem_wf := loadBytes_wf bytes 0 s.mem hs.mem_wf
        mem_in := loadBytes_below s.cfg.N bytes 0 s.mem hs.mem_in (by omega)
        idle_zero := fun _ hloaded => by simp at hloaded }
    · rwa [hostLoad_of_refused hacc]
  | start =>
    change (hostStart s).Inv
    by_cases hidle : s.status = .idle
    · have hfault := fault_eq_none_of_inv hs (by simp [hidle])
      rw [hostStart_of_idle hidle]
      exact ⟨hs.pc_le, hs.mem_wf, hs.mem_in, by simp [hfault], by simp [hfault], by simp, by simp⟩
    · rwa [hostStart_not_idle hidle]

/-! ### What every reachable state keeps -/

theorem hostStep_cfg (op : HostOp) (s : State) : (hostStep op s).cfg = s.cfg := by
  cases op with
  | reset => rfl
  | load bytes => exact hostLoad_cfg bytes s
  | start => exact hostStart_cfg s
  | read q => rfl

/-- A predicate that holds at reset and that every step and every operation of the host keeps holds of every
reachable state. -/
theorem reachable_induction {c : Config} {P : State → Prop} (hreset : P (State.resetWith c))
    (hstep : ∀ s t, P s → step s = .next t → P t) (hhost : ∀ op s, P s → P (hostStep op s)) {s : State}
    (h : Reachable c s) : P s := by
  induction h with
  | reset => exact hreset
  | event e _ he ih =>
    cases e with
    | coreStep => exact hstep _ _ ih he
    | host op =>
      cases he
      exact hhost op _ ih

/-- Settles O49, by `reachable_induction`: no step and no operation of the host writes the parameters. -/
theorem instanceNeverChanges : Obligations.InstanceNeverChanges := fun c _ h =>
  reachable_induction (P := fun s => s.cfg = c) rfl (fun _ _ hs ht => (step_cfg ht).trans hs)
    (fun op s hs => (hostStep_cfg op s).trans hs) h

theorem inv_of_reachable {c : Config} {s : State} (h : Reachable c s) : s.Inv :=
  reachable_induction (inv_resetWith c) stepKeepsTheInvariant hostKeepsTheInvariant h

/-- Settles O25: the invariant holds of every reachable state, and no record in its range is of the ALU. -/
theorem noProgramReachesUnsupportedOperation : Obligations.NoProgramReachesUnsupportedOperation :=
  fun _ _ h _ hfault => (inv_of_reachable h).fault_range _ hfault

/-- Settles O47: the core by `step_out_cases`; of the host's operations only reset writes `out`. -/
theorem onlyPrnEmits : Obligations.OnlyPrnEmits := by
  refine ⟨fun s t => step_out_cases, fun op s hop => ?host⟩
  case host =>
    cases op with
    | reset => exact absurd rfl hop
    | load bytes => exact hostLoad_out bytes s
    | start => exact hostStart_out s
    | read q => rfl

/-- Settles O48: the core by `step_byte_cases`; of the host's operations only an accepted load writes, and only below
the length of the program. -/
theorem onlyPushAndLoadChangeMemory : Obligations.OnlyPushAndLoadChangeMemory := by
  refine ⟨fun s t h c => step_byte_cases h, fun op s c hc => ?host⟩
  case host =>
    cases op with
    | reset => exact .inl rfl
    | start => exact absurd (hostStart_byte s c) hc
    | read q => exact absurd rfl hc
    | load bytes =>
      have hload : (hostLoad bytes s).byte c ≠ s.byte c := hc
      by_cases hacc : loadAccepted s bytes = true
      · obtain ⟨hidle, hloaded, _⟩ := loadAccepted_iff.1 hacc
        refine .inr ⟨bytes, rfl, hidle, hloaded, Nat.lt_of_not_le fun hge => hload ?_⟩
        rw [hostLoad_of_accepted hacc]
        exact loadBytes_get_of_ge bytes 0 s.mem (by omega)
      · rw [hostLoad_of_refused hacc] at hload
        exact absurd rfl hload

end Sys2Proof.Proofs

namespace Sys2Proof.Proofs

open Sys2Proof Sys2Proof.Machine

/-! ### Arithmetic -/

theorem trunc8_eq_ofNat_mod (n : Nat) : trunc8 n = BitVec.ofNat 8 (n % 256) :=
  BitVec.eq_of_toNat_eq (by rw [trunc8, BitVec.toNat_ofNat, BitVec.toNat_ofNat, Nat.mod_mod])

theorem addByte_toNat (u v : Byte) : (addByte u v).toNat = (u.toNat + v.toNat) % 256 := BitVec.toNat_ofNat _ 8

theorem incByte_toNat (u : Byte) : (incByte u).toNat = (u.toNat + 1) % 256 := BitVec.toNat_ofNat _ 8

theorem decByte_toNat (u : Byte) : (decByte u).toNat = (u.toNat + 255) % 256 := BitVec.toNat_ofNat _ 8

theorem addByte_comm (u v : Byte) : addByte u v = addByte v u := congrArg trunc8 (Nat.add_comm _ _)

theorem incByte_decByte (u : Byte) : incByte (decByte u) = u := by
  refine BitVec.eq_of_toNat_eq ?_
  have := u.isLt
  rw [incByte_toNat, decByte_toNat]
  omega

/-- Settles O26: each computation by its value as a natural number. -/
theorem arithmeticIsModulo256 : Obligations.ArithmeticIsModulo256 := by
  refine fun u v => ⟨mulByte_toNat u v, addByte_toNat u v, ?decrement, incByte_toNat u, by decide, by decide⟩
  case decrement =>
    rw [decByte_toNat]
    omega

theorem alu_add (a b : RegNum) (s : State) : alu .add a b s = s.setReg a (addByte (s.reg a) (s.reg b)) := rfl

/-- Settles O23: ADD is `addByte` into the first register (`alu_add`). -/
theorem aluAddWraps : Obligations.AluAddWraps := by
  refine fun a b s => ⟨?sum, ?doubles, ?commutes⟩
  case sum =>
    rw [← trunc8_eq_ofNat_mod]
    rfl
  case doubles =>
    rintro rfl
    simp only [alu_add, State.setReg_reg, if_true, addByte_toNat]
    omega
  case commutes =>
    intro s' ha hb
    simp only [alu_add, State.setReg_reg, if_true, ha, hb, addByte_comm (s.reg b)]

/-- Settles O24: any other tag is `State.raise` with that tag, by definition. -/
theorem aluOtherTagsFault : Obligations.AluOtherTagsFault := fun _ _ _ _ => rfl

/-! ### HLT, PRN, PUSH and POP, one by one -/

/-- Settles O10: HLT is fetched where its byte stands (`step_of_fetches`), and a halted core is neither running nor
idle. -/
theorem hltStopsTheLoop : Obligations.HltStopsTheLoop := by
  refine ⟨exec_hlt, fun s hs hpc hop => ?step, fun s hs hpc => step_unfetched hs (fetch_of_pc_outside hpc),
    fun s hs => ⟨step_not_running (by simp [hs]), fun op => hostStep_of_not_idle (by simp [hs])⟩⟩
  case step => exact step_of_fetches (i := .hlt) hs ((fetches_iff_of_one rfl).2 ⟨hpc, hop⟩)

/-- 40_execution_cycle.md R101, R103, for an opcode with one operand byte: a step faults when it is outside the memory,
and else executes the instruction `mk` makes of it. -/
theorem step_of_one_operand {s : State} {mk : Byte → Instr} (hs : s.status = .running) (hpc : s.pc < s.cfg.N)
    (hlen : opcodeLen (s.byte s.pc) = some 2) (henc : ∀ a, encode (mk a) = [s.byte s.pc, a]) :
    step s =
      if s.cfg.N ≤ s.pc + 1 then .next (s.raise (.outOfBoundsMemory (s.pc + 1)))
      else exec (mk (s.byte (s.pc + 1))) s := by
  split
  case isTrue hN =>
    have hend : s.cfg.N = s.pc + 1 := by omega
    exact step_unfetched hs (hend ▸ fetch_across_the_end hpc hlen (by omega))
  case isFalse hN => exact step_of_fetches hs ((fetches_iff_of_two (henc _)).2 ⟨by omega, rfl, rfl⟩)

/-- Settles O12: `exec` by the two ways PRN can end, the step by `step_of_one_operand` for the row of PRN. -/
theorem prnEmitsTheRegister : Obligations.PrnEmitsTheRegister := by
  refine ⟨fun _ _ => exec_prn_of_lt, fun _ _ => exec_prn_of_ge, fun s hs hpc hop => ?step⟩
  case step => exact step_of_one_operand hs hpc (by rw [hop]; rfl) fun a => by rw [hop]; rfl

theorem eq_pushSp {s : State} {sp : Byte} (hsp : sp.toNat = (s.x[7].toNat + 255) % 256) : sp = pushSp s :=
  BitVec.eq_of_toNat_eq (hsp.trans (decByte_toNat _).symm)

/-- Settles O14: `exec` by the three ways PUSH can end, the step by `step_of_one_operand` for the row of PUSH. -/
theorem pushStoresBelowTheStackTop : Obligations.PushStoresBelowTheStackTop := by
  refine ⟨fun a sp s ha hsp hN => ?completes, fun _ _ => exec_push_of_register_ge, fun a sp s ha hsp hN => ?outside,
    fun s hs hpc hop => ?step⟩
  case completes =>
    obtain rfl := eq_pushSp hsp
    rw [exec_push_of_lt ha hN]
    simp [State.advance, State.setReg, State.store, pushAddr, pushValue, Fin.ext_iff, State.reg]
  case outside =>
    obtain rfl := eq_pushSp hsp
    exact exec_push_of_addr_ge ha hN
  case step => exact step_of_one_operand hs hpc (by rw [hop]; rfl) fun a => by rw [hop]; rfl

/-- Settles O15: `exec` by the three ways POP can end, the step by `step_of_one_operand` for the row of POP. -/
theorem popLoadsTheStackTop : Obligations.PopLoadsTheStackTop := by
  refine ⟨fun a s ha hN => ?completes, fun _ _ => exec_pop_of_register_ge, fun a s ha hN => exec_pop_of_addr_ge ha hN,
    fun s hs hpc hop => ?step⟩
  case completes =>
    rw [exec_pop_of_lt ha hN, incByte, State.setReg_reg, trunc8_eq_ofNat_mod]
    simp [State.advance, State.setReg, popAddr, Fin.ext_iff, State.reg]
  case step => exact step_of_one_operand hs hpc (by rw [hop]; rfl) fun a => by rw [hop]; rfl

end Sys2Proof.Proofs

namespace Sys2Proof.Proofs

open Sys2Proof Sys2Proof.Machine

/-! ### What the host reads -/

theorem hostCell_eq_ite (s : State) (a : Nat) : hostCell s a = if s.cfg.N ≤ a then none else some (s.byte a) := by
  split
  case isTrue h => exact if_neg (Nat.not_lt.2 h)
  case isFalse h => exact if_pos (Nat.lt_of_not_le h)

theorem diagnosticTrace_cells (s : State) (k : Nat) (h : k < (diagnosticTrace s).cells.length) :
    (diagnosticTrace s).cells[k] = hostCell s (s.pc + k) := by
  match k, h with
  | 0, _ => rfl
  | 1, _ => rfl
  | 2, _ => rfl

/-- Settles O55: the cells by `hostCell_eq_ite`, those of the trace by `diagnosticTrace_cells`. -/
theorem hostReadsShowTheState : Obligations.HostReadsShowTheState := by
  refine ⟨fun _ _ => rfl, fun _ => ⟨rfl, rfl, rfl, fun _ => rfl⟩,
    fun s a => congrArg HostAnswer.byte (hostCell_eq_ite s a), fun s => ⟨s.faultCode, rfl, ?codes⟩,
    fun s => ⟨diagnosticTrace s, rfl, rfl, rfl, rfl, fun k h => ?cells⟩⟩
  case codes =>
    unfold State.faultCode
    refine ⟨fun h => ?_, fun a h => ?_, fun b h => ?_, fun p b h => ?_, fun tag h => ?_⟩ <;> rw [h] <;> rfl
  case cells => rw [diagnosticTrace_cells, hostCell_eq_ite]

/-! ### The launch of a program -/

/-- 10_state.md R41: a program that fits is launched, its bytes in the memory and everything else as reset left it. -/
theorem launch_of_length_le {c : Config} {bytes : List Byte} (h : bytes.length ≤ c.N) :
    ∃ m : Memory, launch c bytes = some { State.resetWith c with mem := m, loaded := true, status := .running } ∧
      ∀ a, m.get a = (bytes[a]?).getD 0#8 := by
  have hacc : loadAccepted (State.resetWith c) bytes = true := loadAccepted_iff.2 ⟨rfl, rfl, h⟩
  refine ⟨loadBytes 0 bytes [], ?_, fun a => ?_⟩
  · rw [launch, if_pos hacc, hostLoad_of_accepted hacc, hostStart_of_idle (by rfl)]
    rfl
  · simpa using loadBytes_get bytes 0 [] a Memory.nil_wf

theorem launch_of_lt_length {c : Config} {bytes : List Byte} (h : c.N < bytes.length) : launch c bytes = none := by
  refine if_neg fun hacc => ?_
  obtain ⟨_, _, hle⟩ := loadAccepted_iff.1 hacc
  exact absurd hle (Nat.not_le.2 h)

/-- Settles O53: `launch_of_length_le`, read field by field, and `launch_of_lt_length`. -/
theorem launchStateIsAsListed : Obligations.LaunchStateIsAsListed := by
  refine fun c bytes => ⟨fun hle => ?launched, launch_of_lt_length⟩
  case launched =>
    obtain ⟨m, hlaunch, hget⟩ := launch_of_length_le hle
    refine ⟨_, hlaunch, rfl, fun r => resetWith_reg, rfl, rfl, fun i h => ?_, fun i h => ?_, rfl, rfl, rfl⟩
    · exact (hget i).trans (by simp [h])
    · exact (hget i).trans (by simp [h])

theorem launch_eq_some {c : Config} {bytes : List Byte} {s : State} (h : launch c bytes = some s) :
    s.cfg = c ∧ s.pc = 0 ∧ s.status = .running ∧ ∀ i (hi : i < bytes.length), s.byte i = bytes[i] := by
  obtain ⟨hfits, htooLong⟩ := launchStateIsAsListed c bytes
  rcases Nat.lt_or_ge c.N bytes.length with hlt | hle
  · rw [htooLong hlt] at h
    cases h
  · obtain ⟨u, hu, hcfg, _, _, hpc, hbytes, _, hrunning, _⟩ := hfits hle
    cases hu.symm.trans h
    exact ⟨hcfg, hpc, hrunning, hbytes⟩

/-! ### Runs -/

theorem runsTo_one {s t : State} : runsTo 1 s t ↔ step s = .next t := by
  simp [runsTo_succ, runsTo_zero]

theorem runsTo_add {j k : Nat} {s t : State} : runsTo (j + k) s t ↔ ∃ u, runsTo j s u ∧ runsTo k u t := by
  induction j generalizing s with
  | zero => simp [runsTo_zero]
  | succ j ih =>
    rw [Nat.succ_add]
    simp only [runsTo_succ, ih]
    constructor
    · rintro ⟨v, hv, u, hu, ht⟩
      exact ⟨u, ⟨v, hv, hu⟩, ht⟩
    · rintro ⟨u, ⟨v, hv, hu⟩, ht⟩
      exact ⟨v, hv, u, hu, ht⟩

theorem runsTo_unique {k : Nat} {s t u : State} (ht : runsTo k s t) (hu : runsTo k s u) : t = u :=
  Host.Outcome.next.inj (ht.symm.trans hu)

/-- 40_execution_cycle.md R100: a core that does not run stays as it is. -/
theorem runsTo_of_not_running {s : State} (hs : s.status ≠ .running) (k : Nat) : runsTo k s s := by
  induction k with
  | zero => exact runsTo_zero.2 rfl
  | succ k ih => exact runsTo_succ.2 ⟨s, step_not_running hs, ih⟩

/-- Both runs, prolonged to the same number of steps, still stand at their ends. -/
theorem end_unique {j k : Nat} {s t u : State} (ht : runsTo k s t) (htStopped : t.status ≠ .running)
    (hu : runsTo j s u) (huStopped : u.status ≠ .running) : u = t := by
  have htLong : runsTo (k + j) s t := runsTo_add.2 ⟨t, ht, runsTo_of_not_running htStopped j⟩
  have huLong : runsTo (j + k) s u := runsTo_add.2 ⟨u, hu, runsTo_of_not_running huStopped k⟩
  exact runsTo_unique (Nat.add_comm j k ▸ huLong) htLong

/-- What both kinds of end have in common. -/
theorem runsTo_of_end {k : Nat} {s t : State} (h : endsHalted k s t ∨ ∃ f, endsFaulted k s f t) :
    runsTo k s t ∧ t.status ≠ .running := by
  rcases h with ⟨hrun, hhalted⟩ | ⟨f, hrun, hfaulted, _⟩
  · exact ⟨hrun, by simp [hhalted]⟩
  · exact ⟨hrun, by simp [hfaulted]⟩

theorem end_of_step {k : Nat} {s t u : State} (hstep : step s = .next t)
    (h : endsHalted k t u ∨ ∃ f, endsFaulted k t f u) :
    endsHalted (k + 1) s u ∨ ∃ f, endsFaulted (k + 1) s f u := by
  rcases h with ⟨hrun, hhalted⟩ | ⟨f, hrun, hfaulted⟩
  · exact .inl ⟨runsTo_succ.2 ⟨t, hstep, hrun⟩, hhalted⟩
  · exact .inr ⟨f, runsTo_succ.2 ⟨t, hstep, hrun⟩, hfaulted⟩

/-- 40_execution_cycle.md R110, by induction on the number of cells from `pc` on: a step that completes and does not
halt moves `pc` past at least one of them. -/
theorem run_ends (n : Nat) (s : State) (hs : s.status = .running) (hn : s.cfg.N - s.pc ≤ n) :
    ∃ k t, k ≤ n + 1 ∧ (endsHalted k s t ∨ ∃ f, endsFaulted k s f t) := by
  induction n generalizing s with
  | zero =>
    have hpc : s.cfg.N ≤ s.pc := by omega
    have hstep := step_unfetched hs (fetch_of_pc_outside hpc)
    exact ⟨1, _, Nat.le_refl _, .inr ⟨_, runsTo_one.2 hstep, rfl, rfl⟩⟩
  | succ n ih =>
    obtain ⟨t, hstep⟩ := step_next s
    rcases step_running_cases hs hstep with ⟨hrunning, _, i, _, hfetches, hexec⟩ | ⟨hhalted, _⟩ | ⟨f, rfl⟩
    · obtain ⟨_, hpc⟩ := wf_and_pc_of_exec_not_faulted hexec (by simp [hrunning])
      have hlen := one_le_len i
      have hcfg := step_cfg hstep
      obtain ⟨k, u, hk, hend⟩ := ih t hrunning (by rw [hcfg, hpc]; omega)
      exact ⟨k + 1, u, by omega, end_of_step hstep hend⟩
    · exact ⟨1, t, by omega, .inl ⟨runsTo_one.2 hstep, hhalted⟩⟩
    · exact ⟨1, _, by omega, .inr ⟨f, runsTo_one.2 hstep, rfl, rfl⟩⟩

/-- Settles O40: `run_ends` with as many cells as there are from `pc` on. -/
theorem everyRunStops : Obligations.EveryRunStops := fun s hs _ => run_ends _ s hs (Nat.le_refl _)

/-- Settles O41: the run ends by `run_ends`, its end is the only one by `end_unique`, and it is the one that
`validProgram` asks to be halted. -/
theorem launchedProgramHasOneEnd : Obligations.LaunchedProgramHasOneEnd := by
  intro c bytes s hlaunch
  obtain ⟨hcfg, hpc, hs, _⟩ := launch_eq_some hlaunch
  obtain ⟨k, t, hk, hend⟩ := run_ends c.N s hs (by rw [hcfg, hpc]; exact Nat.sub_le _ _)
  obtain ⟨hrun, hstopped⟩ := runsTo_of_end hend
  have only {j : Nat} {u : State} (h : endsHalted j s u ∨ ∃ f, endsFaulted j s f u) : u = t := by
    obtain ⟨hu, huStopped⟩ := runsTo_of_end h
    exact end_unique hrun hstopped hu huStopped
  refine ⟨k, t, hk, hend, fun j u => only, fun j => runsTo_add.2 ⟨t, hrun, runsTo_of_not_running hstopped j⟩, ?valid⟩
  case valid =>
    constructor
    · rintro ⟨s', j, u, hlaunch', hhalted⟩
      cases hlaunch.symm.trans hlaunch'
      obtain rfl := only (.inl hhalted)
      exact hhalted.2
    · exact fun hhalted => ⟨s, k, t, hlaunch, hrun, hhalted⟩

/-- Settles O27: two steps, each at the encoding of its instruction. -/
theorem ldiThenPrnEmitsTheImmediate : Obligations.LdiThenPrnEmitsTheImmediate := by
  intro s a v h hs hN hldi ha hv hprn ha'
  have hfirst : step s = .next ((s.setReg ⟨a.toNat, h⟩ v).advance 3) :=
    (step_of_fetches hs ((fetches_iff_of_three rfl).2 ⟨by omega, hldi, ha, hv⟩)).trans (exec_ldi_of_lt h)
  have hfetches : fetches ((s.setReg ⟨a.toNat, h⟩ v).advance 3) (.prn a) :=
    (fetches_iff_of_two rfl).2 ⟨hN, hprn, ha'⟩
  have hsecond := (step_of_fetches (s := (s.setReg ⟨a.toNat, h⟩ v).advance 3) hs hfetches).trans (exec_prn_of_lt h)
  refine runsTo_succ.2 ⟨_, hfirst, runsTo_one.2 (hsecond.trans ?_)⟩
  simp [State.emit, State.advance, State.setReg, State.reg]

end Sys2Proof.Proofs

namespace Sys2Proof.Proofs

open Sys2Proof Sys2Proof.Machine

/-! ### PUSH and POP of a register other than R7 -/

/-- The state after `PUSH r`, of an address inside the memory. -/
def afterPush (s : State) (r : RegNum) : State :=
  ((s.store (pushAddr s) (pushValue s r)).setReg spReg (pushSp s)).advance 2

/-- The state after `POP q`, of an address inside the memory and `q` not R7. -/
def afterPop (s : State) (q : RegNum) : State :=
  ((s.setReg q (s.byte (popAddr s))).setReg spReg (incByte (s.reg spReg))).advance 2

section

variable {s : State} {r q p : RegNum} {c : Nat}

theorem exec_push_afterPush (hN : pushAddr s < s.cfg.N) : exec (.push (regByte r)) s = .next (afterPush s r) :=
  exec_of_completes (.push r hN)

theorem exec_pop_afterPop (hq : q ≠ spReg) (hN : popAddr s < s.cfg.N) :
    exec (.pop (regByte q)) s = .next (afterPop s q) := by
  have hexec := exec_of_completes (.pop q hN)
  rwa [State.setReg_reg, if_neg hq] at hexec

theorem afterPush_reg : (afterPush s r).reg p = if spReg = p then pushSp s else s.reg p := by simp [afterPush]

theorem afterPush_reg_spReg : (afterPush s r).reg spReg = pushSp s := by simp [afterPush_reg]

theorem afterPush_reg_other (hp : p ≠ spReg) : (afterPush s r).reg p = s.reg p := by simp [afterPush_reg, hp.symm]

theorem afterPush_byte_self (hr : r ≠ spReg) (hm : s.mem.wf) : (afterPush s r).byte (pushAddr s) = s.reg r := by
  simp [afterPush, State.store_byte s _ _ _ hm, pushValue, hr]

theorem afterPush_byte_other (hc : c ≠ pushAddr s) : (afterPush s r).byte c = s.byte c :=
  State.store_byte_other s _ hc

theorem popAddr_afterPush : popAddr (afterPush s r) = pushAddr s := congrArg BitVec.toNat afterPush_reg_spReg

theorem afterPop_reg_spReg : (afterPop s q).reg spReg = incByte (s.reg spReg) := by simp [afterPop]

theorem afterPop_reg_self (hq : q ≠ spReg) : (afterPop s q).reg q = s.byte (popAddr s) := by
  simp [afterPop, hq.symm]

theorem afterPop_reg_other (hp : p ≠ spReg) (hqp : q ≠ p) : (afterPop s q).reg p = s.reg p := by
  simp [afterPop, hp.symm, hqp]

theorem pushAddr_eq : pushAddr s = ((s.reg spReg).toNat + 255) % 256 := decByte_toNat _

end

/-- Settles O28: POP reads the cell that PUSH wrote (`popAddr_afterPush`) and undoes its decrement
(`incByte_decByte`). -/
theorem pushThenPopRestores : Obligations.PushThenPopRestores := by
  intro a b s ha hb hm hN
  have hvalue : (afterPush s a).byte (popAddr (afterPush s a)) = s.reg a := by
    rw [popAddr_afterPush, afterPush_byte_self ha hm]
  refine ⟨_, _, exec_push_afterPush hN, exec_pop_afterPop hb (popAddr_afterPush ▸ hN), ?popped, ?sp, ?pushed, ?cell,
    rfl, rfl⟩
  case popped => rw [afterPop_reg_self hb, hvalue]
  case sp => rw [afterPop_reg_spReg, afterPush_reg_spReg, pushSp, incByte_decByte]
  case pushed =>
    by_cases hba : b = a
    · rw [← hba, afterPop_reg_self hb, hba, hvalue]
    · rw [afterPop_reg_other ha hba, afterPush_reg_other ha]
  case cell =>
    rw [← pushAddr_eq]
    exact afterPush_byte_self ha hm

/-- Settles O31: the next fetch reads the cell that PUSH wrote; when it holds the byte of HLT, HLT stands there. -/
theorem storedByteIsFetchedNext : Obligations.StoredByteIsFetchedNext := by
  intro r s t hr hm hs hN haddr h
  cases (exec_push_afterPush hN).symm.trans h
  have hpc : (afterPush s r).pc < (afterPush s r).cfg.N := haddr.symm.trans_lt hN
  have hbyte : (afterPush s r).byte (afterPush s r).pc = s.reg r := by
    have hcell := afterPush_byte_self hr hm
    rwa [haddr] at hcell
  constructor
  · rw [fetchWindow_head hpc, hbyte, List.head?_cons]
  · intro hhlt
    have hfetches : fetches (afterPush s r) .hlt := (fetches_iff_of_one rfl).2 ⟨hpc, hbyte.trans hhlt⟩
    exact step_of_fetches (s := afterPush s r) hs hfetches

/-! ### Sequences of instructions -/

theorem execSeq_cons {s t : State} {i : Instr} {is : List Instr} (h : exec i s = .next t) (ht : t.status ≠ .faulted) :
    execSeq (i :: is) s = execSeq is t := by
  simp [execSeq, h, ht]

theorem execSeq_append {s t : State} {is js : List Instr} (h : execSeq is s = .next t) (ht : t.status ≠ .faulted) :
    execSeq (is ++ js) s = execSeq js t := by
  induction is generalizing s with
  | nil =>
    cases h
    rfl
  | cons i is ih =>
    obtain ⟨u, hu⟩ := exec_next s i
    by_cases hfaulted : u.status = .faulted
    · simp only [execSeq, hu, if_pos hfaulted] at h
      cases h
      exact absurd hfaulted ht
    · rw [execSeq_cons hu hfaulted] at h
      rw [List.cons_append, execSeq_cons hu hfaulted, ih h]

/-! ### Writes to registers in sequence -/

/-- Values put into registers, one after another. -/
def putRegs (x : Vector Byte 8) (writes : List (RegNum × Byte)) : Vector Byte 8 :=
  writes.foldl (fun x qv => x.set qv.1.val qv.2 qv.1.isLt) x

theorem putRegs_concat (x : Vector Byte 8) (writes : List (RegNum × Byte)) (q : RegNum) (v : Byte) :
    putRegs x (writes ++ [(q, v)]) = (putRegs x writes).set q.val v := by
  simp [putRegs]

/-- A write to a register that is not among the others can come before or after them. -/
theorem putRegs_set {writes : List (RegNum × Byte)} {p : RegNum} (hp : ∀ qv ∈ writes, qv.1 ≠ p) (x : Vector Byte 8)
    (v : Byte) : putRegs (x.set p.val v) writes = (putRegs x writes).set p.val v := by
  induction writes generalizing x with
  | nil => rfl
  | cons qv writes ih =>
    have hne : p.val ≠ qv.1.val := fun h => hp qv List.mem_cons_self (Fin.ext h.symm)
    have htail := ih fun qv' hqv' => hp qv' (List.mem_cons_of_mem _ hqv')
    exact (congrArg (putRegs · writes) (Vector.set_comm v qv.2 hne)).trans (htail _)

theorem putRegs_getElem {writes : List (RegNum × Byte)} {p : RegNum} (hp : ∀ qv ∈ writes, qv.1 ≠ p)
    (x : Vector Byte 8) : (putRegs x writes)[p.val] = x[p.val] := by
  have hkeep := putRegs_set hp x x[p.val]
  rw [Vector.set_getElem_self] at hkeep
  rw [hkeep, Vector.getElem_set_self]

theorem fst_ne_of_mem_zip {qs : List RegNum} {vs : List Byte} {p : RegNum} (hp : p ∉ qs) :
    ∀ qv ∈ qs.zip vs, qv.1 ≠ p :=
  fun _ hqv heq => hp (heq ▸ (List.of_mem_zip hqv).1)

/-! ### Pushes and pops, nested -/

/-- PUSH of each of these registers in turn. -/
def pushes (rs : List RegNum) : List Instr := rs.map fun r => .push (regByte r)

/-- POP into each of these registers in turn. -/
def pops (qs : List RegNum) : List Instr := qs.map fun q => .pop (regByte q)

/-- What `n` pushes and `n` pops, the outer ones around the inner ones, leave: the popped values in the registers, and
of the memory everything but the `n` cells below the stack top, modulo 256. -/
structure StackBalanced (n : Nat) (writes : List (RegNum × Byte)) (s t : State) : Prop where
  x : t.x = putRegs s.x writes
  pc : t.pc = s.pc + 4 * n
  out : t.out = s.out
  status : t.status = s.status
  fault : t.fault = s.fault
  cfg : t.cfg = s.cfg
  byte : ∀ d, d + n < 256 → t.byte (((s.reg spReg).toNat + d) % 256) = s.byte (((s.reg spReg).toNat + d) % 256)

theorem StackBalanced.refl (s : State) : StackBalanced 0 [] s s := ⟨rfl, rfl, rfl, rfl, rfl, rfl, fun _ _ => rfl⟩

section

variable {n : Nat} {writes : List (RegNum × Byte)} {s t : State} {r q : RegNum}
  (h : StackBalanced n writes (afterPush s r) t) (hwrites : ∀ qv ∈ writes, qv.1 ≠ spReg)
include h hwrites

/-- Between the outer PUSH and the outer POP the stack pointer is where that PUSH left it. -/
theorem StackBalanced.x_of_afterPush : t.x = (putRegs s.x writes).set spReg.val (pushSp s) :=
  h.x.trans (putRegs_set hwrites s.x (pushSp s))

theorem StackBalanced.reg_spReg_of_afterPush : t.reg spReg = pushSp s := by
  simp [State.reg, h.x_of_afterPush hwrites]

theorem StackBalanced.popAddr_of_afterPush : popAddr t = pushAddr s :=
  congrArg BitVec.toNat (h.reg_spReg_of_afterPush hwrites)

/-- One more PUSH before and one more POP after: POP finds the pushed value, as the inner instructions leave its cell
alone. -/
theorem StackBalanced.wrap (hr : r ≠ spReg) (hq : q ≠ spReg) (hm : s.mem.wf) (hn : n < 256) :
    StackBalanced (n + 1) (writes ++ [(q, s.reg r)]) s (afterPop t q) := by
  have haddr := pushAddr_eq (s := s)
  have hinner : ∀ d, d + n < 256 →
      t.byte ((pushAddr s + d) % 256) = (afterPush s r).byte ((pushAddr s + d) % 256) := by
    intro d hd
    have hbyte := h.byte d hd
    rwa [afterPush_reg_spReg] at hbyte
  have hvalue : t.byte (popAddr t) = s.reg r := by
    have hcell := hinner 0 (by omega)
    rw [Nat.add_zero, Nat.mod_eq_of_lt (by omega)] at hcell
    rw [h.popAddr_of_afterPush hwrites, hcell, afterPush_byte_self hr hm]
  have hsp : incByte (t.reg spReg) = s.reg spReg := by
    rw [h.reg_spReg_of_afterPush hwrites, pushSp, incByte_decByte]
  refine ⟨?x, ?pc, h.out, h.status, h.fault, h.cfg, fun d hd => ?byte⟩
  case x =>
    have hne : spReg.val ≠ q.val := fun heq => hq (Fin.ext heq.symm)
    calc (t.x.set q.val (t.byte (popAddr t))).set spReg.val (incByte (t.reg spReg))
      _ = (((putRegs s.x writes).set spReg.val (pushSp s)).set q.val (s.reg r)).set spReg.val (s.reg spReg) := by
        rw [hvalue, hsp, h.x_of_afterPush hwrites]
      _ = ((putRegs s.x writes).set spReg.val (s.reg spReg)).set q.val (s.reg r) := by
        rw [Vector.set_comm _ _ hne, Vector.set_set, Vector.set_comm _ _ hne.symm]
      _ = putRegs s.x (writes ++ [(q, s.reg r)]) := by
        rw [← putRegs_set hwrites, State.reg, Vector.set_getElem_self, putRegs_concat]
  case pc =>
    have hpc : t.pc = s.pc + 2 + 4 * n := h.pc
    change t.pc + 2 = s.pc + 4 * (n + 1)
    omega
  case byte =>
    have hcell : ((s.reg spReg).toNat + d) % 256 = (pushAddr s + (d + 1)) % 256 := by omega
    have hother : (pushAddr s + (d + 1)) % 256 ≠ pushAddr s := by omega
    change t.byte _ = s.byte _
    rw [hcell, hinner (d + 1) (by omega), afterPush_byte_other hother]

end

/-- 44_stack.md R153, by induction on the registers pushed: the first pushed goes with the last popped, around the
rest. -/
theorem execSeq_pushes_pops (rs qs : List RegNum) (s : State) (hlen : rs.length = qs.length) (hn : rs.length ≤ 256)
    (hrs : spReg ∉ rs) (hqs : spReg ∉ qs) (hN : s.cfg.N = 256) (hm : s.mem.wf) (hs : s.status ≠ .faulted) :
    ∃ t, execSeq (pushes rs ++ pops qs) s = .next t ∧
      StackBalanced rs.length (qs.zip (rs.reverse.map s.reg)) s t := by
  induction rs generalizing qs s with
  | nil =>
    obtain rfl : qs = [] := List.length_eq_zero_iff.1 hlen.symm
    exact ⟨s, rfl, .refl s⟩
  | cons r rs ih =>
    rcases List.eq_nil_or_concat' qs with rfl | ⟨qs, q, rfl⟩
    · simp at hlen
    obtain ⟨hr, hrs⟩ : r ≠ spReg ∧ spReg ∉ rs := by simpa [eq_comm] using hrs
    obtain ⟨hqs, hq⟩ : spReg ∉ qs ∧ q ≠ spReg := by simpa [eq_comm] using hqs
    have hlen : rs.length = qs.length := by simpa using hlen
    have hn : rs.length < 256 := hn
    have inside {u : State} (p : Byte) (hu : u.cfg.N = 256) : p.toNat < u.cfg.N := hu ▸ p.isLt
    obtain ⟨t, hinner, hbal⟩ := ih qs (afterPush s r) hlen hn.le hrs hqs hN (Memory.set_wf _ _ _ hm) hs
    have hvalues : rs.reverse.map (afterPush s r).reg = rs.reverse.map s.reg :=
      List.map_congr_left fun p hp => afterPush_reg_other fun hsp => hrs (hsp ▸ List.mem_reverse.1 hp)
    rw [hvalues] at hbal
    have hwrites := fst_ne_of_mem_zip (vs := rs.reverse.map s.reg) hqs
    have hpush : exec (.push (regByte r)) s = .next (afterPush s r) := exec_push_afterPush (inside (pushSp s) hN)
    have hpop : exec (.pop (regByte q)) t = .next (afterPop t q) :=
      exec_pop_afterPop hq (inside (t.reg spReg) ((congrArg Config.N hbal.cfg).trans hN))
    have ht : t.status ≠ .faulted := hbal.status ▸ hs
    refine ⟨afterPop t q, ?run, ?balanced⟩
    case run =>
      calc execSeq (pushes (r :: rs) ++ pops (qs ++ [q])) s
        _ = execSeq (.push (regByte r) :: ((pushes rs ++ pops qs) ++ [.pop (regByte q)])) s := by simp [pushes, pops]
        _ = execSeq [.pop (regByte q)] t := by rw [execSeq_cons hpush hs, execSeq_append hinner ht]
        _ = .next (afterPop t q) := execSeq_cons hpop ht
    case balanced =>
      have hzip : (qs ++ [q]).zip ((r :: rs).reverse.map s.reg) =
          qs.zip (rs.reverse.map s.reg) ++ [(q, s.reg r)] := by
        rw [List.reverse_cons, List.map_append, List.zip_append (by simp [hlen])]
        rfl
      rw [hzip]
      exact hbal.wrap hwrites hr hq hm hn

/-- Settles O29: `execSeq_pushes_pops`, with R7 untouched by the writes that are left (`putRegs_getElem`). -/
theorem pushesThenPopsAreLifo : Obligations.PushesThenPopsAreLifo := by
  intro rs qs s hlen hn hrs hqs hN hm hs
  obtain ⟨t, hrun, hbal⟩ := execSeq_pushes_pops rs qs s hlen hn hrs hqs hN hm hs
  refine ⟨t, hrun, hbal.x, ?sp, hbal.pc, hbal.out, hbal.status, hbal.fault⟩
  case sp =>
    rw [State.reg, hbal.x, putRegs_getElem (fst_ne_of_mem_zip hqs)]
    rfl

end Sys2Proof.Proofs

namespace Sys2Proof.Proofs

open Sys2Proof Sys2Proof.Machine

/-! ### Decimal numerals -/

theorem digitChar_toNat : ∀ n < 10, (digitChar n).toNat = 48 + n := by decide

theorem digitChar_isDigit : ∀ n < 10, (digitChar n).isDigit = true := by decide

theorem digitChar_ne_zero : ∀ n < 10, n ≠ 0 → digitChar n ≠ '0' := by decide

/-- 42_register.md R134: the numeral stands for the value, by the number of its digits. -/
theorem digitsValue_decimal (v : Byte) : digitsValue (decimal v) = v.toNat := by
  have := v.isLt
  unfold decimal
  split
  · simp only [digitsValue, List.foldl, digitChar_toNat _ ‹_›]
    omega
  · split
    · simp only [digitsValue, List.foldl, digitChar_toNat (v.toNat / 10) (by omega),
        digitChar_toNat (v.toNat % 10) (by omega)]
      omega
    · simp only [digitsValue, List.foldl, digitChar_toNat (v.toNat / 100) (by omega),
        digitChar_toNat (v.toNat / 10 % 10) (by omega), digitChar_toNat (v.toNat % 10) (by omega)]
      omega

/-- 42_register.md R134: digits alone, the first not 0 but for the value 0. -/
theorem decimal_no_leading_zero (v : Byte) :
    decimal v = ['0'] ∨ ∃ d ds, decimal v = d :: ds ∧ d ≠ '0' ∧ ∀ c ∈ decimal v, c.isDigit = true := by
  have := v.isLt
  have numeral {n : Nat} {ns : List Nat} (hn : n ≠ 0) (hdigits : ∀ m ∈ n :: ns, m < 10)
      (hv : decimal v = (n :: ns).map digitChar) :
      ∃ d ds, decimal v = d :: ds ∧ d ≠ '0' ∧ ∀ c ∈ decimal v, c.isDigit = true := by
    refine ⟨_, _, hv, digitChar_ne_zero n (hdigits n List.mem_cons_self) hn, fun c hc => ?_⟩
    obtain ⟨m, hm, rfl⟩ := List.mem_map.1 (hv ▸ hc)
    exact digitChar_isDigit m (hdigits m hm)
  by_cases hzero : v.toNat = 0
  · exact .inl (by simp [decimal, hzero]; rfl)
  · refine .inr ?_
    rcases Nat.lt_or_ge v.toNat 10 with h10 | h10
    · exact numeral (n := v.toNat) (ns := []) hzero (by simp; omega) (by simp [decimal, h10])
    · rcases Nat.lt_or_ge v.toNat 100 with h100 | h100
      · exact numeral (n := v.toNat / 10) (ns := [v.toNat % 10]) (by omega) (by simp; omega)
          (by simp [decimal, h100, Nat.not_lt.2 h10])
      · exact numeral (n := v.toNat / 100) (ns := [v.toNat / 10 % 10, v.toNat % 10]) (by omega) (by simp; omega)
          (by simp [decimal, Nat.not_lt.2 h100, Nat.not_lt.2 h10])

/-- Settles O59: one numeral a value, `digitsValue_decimal` and `decimal_no_leading_zero`. -/
theorem consoleLinesAreDecimal : Obligations.ConsoleLinesAreDecimal := by
  refine ⟨fun out => ?values, fun out line hline => ?shape⟩
  case values =>
    rw [renderOut, List.map_map]
    exact List.map_congr_left fun v _ => digitsValue_decimal v
  case shape =>
    obtain ⟨v, _, rfl⟩ := List.mem_map.1 hline
    exact decimal_no_leading_zero v

/-! ### Lines of a text -/

theorem splitLines_ne_nil (text : List Char) : splitLines text ≠ [] := by
  cases text with
  | nil => simp [splitLines]
  | cons c cs =>
    simp only [splitLines]
    split
    · simp
    · split <;> simp

/-- A line feed separates the lines before it from the lines after it. -/
theorem splitLines_append (before after : List Char) :
    splitLines (before ++ '\n' :: after) = splitLines before ++ splitLines after := by
  induction before with
  | nil => rfl
  | cons c cs ih =>
    obtain ⟨l, ls, hls⟩ := List.exists_cons_of_ne_nil (splitLines_ne_nil cs)
    by_cases hc : c = '\n'
    · simp [splitLines, hc, ih]
    · simp [splitLines, hc, ih, hls]

theorem splitLines_of_no_line_feed {line : List Char} (h : ∀ c ∈ line, c ≠ '\n') : splitLines line = [line] := by
  induction line with
  | nil => rfl
  | cons c cs ih =>
    simp [splitLines, h c List.mem_cons_self, ih fun d hd => h d (List.mem_cons_of_mem _ hd)]

theorem readLines_cons_skip {l : List Char} (hl : readLine l = .skip) (ls : List (List Char)) :
    readLines (l :: ls) = readLines ls := by
  simp only [readLines, hl]

theorem readLines_cons_byte {l : List Char} {v : Byte} (hl : readLine l = .byte v) (ls : List (List Char)) :
    readLines (l :: ls) = (readLines ls).map (fun bytes => v :: bytes) := by
  simp only [readLines, hl]

theorem readLines_cons_bad {l : List Char} (hl : readLine l = .bad) (ls : List (List Char)) :
    readLines (l :: ls) = none := by
  simp only [readLines, hl]

/-- The lines that come before make no difference between lines that read the same. -/
theorem readLines_append_congr (before : List (List Char)) {ls ls' : List (List Char)}
    (h : readLines ls = readLines ls') : readLines (before ++ ls) = readLines (before ++ ls') := by
  induction before with
  | nil => exact h
  | cons l before ih => simp only [List.cons_append, readLines, ih]

theorem readLines_append_none (before : List (List Char)) {ls : List (List Char)} (h : readLines ls = none) :
    readLines (before ++ ls) = none := by
  induction before with
  | nil => exact h
  | cons l before ih =>
    rw [List.cons_append]
    cases hl : readLine l with
    | skip => rw [readLines_cons_skip hl, ih]
    | byte v => rw [readLines_cons_byte hl, ih, Option.map_none]
    | bad => exact readLines_cons_bad hl _

/-- Settles O58: `bringUp` launches only what the text says, and only when it fits; one bad line spoils the lines
around it. -/
theorem failedLoadNeverStarts : Obligations.FailedLoadNeverStarts := by
  refine ⟨fun c text h => ?badText, fun c text bytes h hlen => ?tooLong,
    fun ls ls' l hl => readLines_append_none ls (readLines_cons_bad hl ls')⟩
  case badText => simp only [bringUp, h]
  case tooLong => simp only [bringUp, h, launch_of_lt_length hlen]

/-! ### The significant part of a line -/

/-- 30_encoding.md R93: the comment goes. -/
theorem takeWhile_comment {body tail : List Char} (hbody : ∀ c ∈ body, c ≠ '#')
    (htail : tail = [] ∨ ∃ r, tail = '#' :: r) : (body ++ tail).takeWhile (fun c => c != '#') = body := by
  have hend : tail.takeWhile (fun c => c != '#') = [] := by
    rcases htail with rfl | ⟨r, rfl⟩ <;> rfl
  rw [List.takeWhile_append_of_pos (by simpa using hbody), hend, List.append_nil]

theorem ne_hash_of_isWhitespace {c : Char} (h : c.isWhitespace = true) : c ≠ '#' := by
  rintro rfl
  exact absurd h (by decide)

/-- 30_encoding.md R93: the white space around a numeral and the comment after it go. -/
theorem significant_of_surrounded {before text after tail : List Char} (hbefore : ∀ c ∈ before, c.isWhitespace = true)
    (hafter : ∀ c ∈ after, c.isWhitespace = true) (htail : tail = [] ∨ ∃ r, tail = '#' :: r)
    (htext : ∀ c ∈ text, c ≠ '#' ∧ c.isWhitespace = false) :
    significant (before ++ text ++ after ++ tail) = text := by
  have hbody : ∀ c ∈ before ++ text ++ after, c ≠ '#' := by
    intro c hc
    rcases List.mem_append.1 hc with hc | hc
    · rcases List.mem_append.1 hc with hc | hc
      · exact ne_hash_of_isWhitespace (hbefore c hc)
      · exact (htext c hc).1
    · exact ne_hash_of_isWhitespace (hafter c hc)
  have hend : after.dropWhile Char.isWhitespace = [] := List.dropWhile_eq_nil_iff.2 hafter
  rw [significant, takeWhile_comment hbody htail, List.append_assoc, List.dropWhile_append_of_pos hbefore]
  cases text with
  | nil => simp [hend]
  | cons c cs =>
    have hlast : (c :: cs).reverse.dropWhile Char.isWhitespace = (c :: cs).reverse := by
      refine List.dropWhile_eq_self_iff.2 fun hpos => ?_
      obtain ⟨_, hnot⟩ := htext _ (List.mem_reverse.1 (List.getElem_mem hpos))
      exact ne_true_of_eq_false hnot
    have hfirst : ¬ c.isWhitespace = true := by simp [(htext c List.mem_cons_self).2]
    rw [List.cons_append, List.dropWhile_cons_of_neg hfirst, ← List.cons_append, List.reverse_append,
      List.dropWhile_append_of_pos (by simpa using hafter), hlast, List.reverse_reverse]

theorem readLine_of_significant_nil {line : List Char} (h : significant line = []) : readLine line = .skip := by
  simp [readLine, h]

theorem readLine_of_significant_long {line : List Char} (h : 8 < (significant line).length) : readLine line = .bad := by
  have hne : significant line ≠ [] := List.ne_nil_of_length_pos (by omega)
  simp only [readLine, if_neg hne, if_pos h]

theorem readLine_of_binaryValue_none {line : List Char} (hne : significant line ≠ [])
    (h : binaryValue 0 (significant line) = none) : readLine line = .bad := by
  simp only [readLine, if_neg hne, h, ite_self]

theorem readLine_of_binaryValue_some {line : List Char} {v : Nat} (hne : significant line ≠ [])
    (hlen : (significant line).length ≤ 8) (h : binaryValue 0 (significant line) = some v) :
    readLine line = .byte (trunc8 v) := by
  simp only [readLine, if_neg hne, if_neg (Nat.not_lt.2 hlen), h]

theorem binaryValue_map_bitChar (ds : List Bool) (acc : Nat) :
    binaryValue acc (ds.map bitChar) = some (ds.foldl (fun n d => 2 * n + d.toNat) acc) := by
  induction ds generalizing acc with
  | nil => rfl
  | cons d ds ih => cases d <;> exact ih _

theorem binaryValue_eq_none {text : List Char} (h : ∃ c ∈ text, c ≠ '0' ∧ c ≠ '1') (acc : Nat) :
    binaryValue acc text = none := by
  obtain ⟨c, hc, hzero, hone⟩ := h
  induction text generalizing acc with
  | nil => cases hc
  | cons d ds ih =>
    rcases List.mem_cons.1 hc with rfl | hc
    · simp [binaryValue, hzero, hone]
    · simp [binaryValue, ih _ hc]

theorem bitChar_significant (d : Bool) : bitChar d ≠ '#' ∧ (bitChar d).isWhitespace = false := by
  cases d <;> decide

/-- Settles O57: the significant part is the digits (`significant_of_surrounded`), of which `binaryValue` is the value;
a character that is no digit has none. -/
theorem loaderReadsBinaryNumerals : Obligations.LoaderReadsBinaryNumerals := by
  refine ⟨fun before after tail ds hbefore hafter htail hds => ?numeral, fun line h => ?other⟩
  case numeral =>
    have htext : ∀ c ∈ ds.map bitChar, c ≠ '#' ∧ c.isWhitespace = false := by
      intro c hc
      obtain ⟨d, _, rfl⟩ := List.mem_map.1 hc
      exact bitChar_significant d
    have hsig := significant_of_surrounded hbefore hafter htail htext
    have hne : ds.map bitChar ≠ [] := mt List.map_eq_nil_iff.1 hds
    have hlen : (ds.map bitChar).length = ds.length := List.length_map _
    rw [← hsig] at hne hlen
    split
    case isTrue h8 =>
      exact readLine_of_binaryValue_some hne (hlen.trans_le h8) (by rw [hsig, binaryValue_map_bitChar]; rfl)
    case isFalse h8 => exact readLine_of_significant_long (by omega)
  case other =>
    obtain ⟨c, hc, hdigit⟩ := h
    exact readLine_of_binaryValue_none (List.ne_nil_of_mem hc) (binaryValue_eq_none ⟨c, hc, hdigit⟩ 0)

/-- 30_encoding.md R94. -/
theorem readLine_of_blankOrComment {line : List Char} (h : blankOrComment line) : readLine line = .skip := by
  obtain ⟨_, ws, rest, rfl, hws, hrest⟩ := h
  have hsig := significant_of_surrounded (text := []) (after := []) hws (by simp) hrest (by simp)
  exact readLine_of_significant_nil (by simpa using hsig)

/-- Settles O56: a text is read line by line (`splitLines_append`), a blank or comment-only line is skipped, and what
is brought up is a launch (`launch_eq_some`). -/
theorem loaderSkipsBlankAndCommentLines : Obligations.LoaderSkipsBlankAndCommentLines := by
  refine ⟨fun before line after hline => ?blank, fun first after hfirst v hv => ?numeral, fun c text s h => ?broughtUp⟩
  case blank =>
    have hskip : readLines (splitLines (line ++ '\n' :: after)) = readLines (splitLines after) := by
      rw [splitLines_append, splitLines_of_no_line_feed hline.1]
      exact readLines_cons_skip (readLine_of_blankOrComment hline) _
    refine ⟨?_, hskip⟩
    rw [parseProgram, parseProgram, splitLines_append before, splitLines_append before]
    exact readLines_append_congr _ hskip
  case numeral =>
    rw [parseProgram, splitLines_append, splitLines_of_no_line_feed hfirst]
    exact readLines_cons_byte hv _
  case broughtUp =>
    cases hparse : parseProgram text with
    | none => simp [bringUp, hparse] at h
    | some bytes =>
      have hlaunch : launch c bytes = some s := by simpa only [bringUp, hparse] using h
      obtain ⟨_, _, _, hbytes⟩ := launch_eq_some hlaunch
      exact ⟨bytes, rfl, hbytes⟩

end Sys2Proof.Proofs
